-- ==== Sys2Proof/Word.lean ====
section
/-! DEFINITION. The word types of QMIX32 and their plainest arithmetic (00_scope.md R8, R9).
Every value of the spec is an unsigned integer of a stated width; there is no signed interpretation
anywhere, so nothing here extends a sign. -/

namespace Sys2Proof

/-- A 32-bit operand or result: `m`, `c` or `r` (00_scope.md R7). -/
abbrev Word := BitVec 32

/-- A 64-bit intermediate (`w`, `x`, `y`, `z`) or an input beat (00_scope.md R7, 30_encoding.md R60). -/
abbrev DWord := BitVec 64

/-- The width of the conceptual 128-bit square (00_scope.md R7). -/
abbrev QWord := BitVec 128

/-- An operand pair `(m, c)`: the message and the chaining variable (00_scope.md R12). -/
abbrev Pair := Word × Word

/-- A text of the host's command interface, as its characters in order. -/
abbrev Text := List Char

/-- `zext_64(v)` of a 32-bit value (00_scope.md R9). -/
def zext64 (v : Word) : DWord := v.setWidth 64

/-- `zext_128(v)` of a 64-bit value (00_scope.md R9). -/
def zext128 (v : DWord) : QWord := v.setWidth 128

/-- `trunc_32(v) = v mod 2^32 = v[31:0]` (00_scope.md R9). -/
def trunc32 (v : DWord) : Word := v.setWidth 32

end Sys2Proof
end

