-- ==== Sys2Proof/Syntax.lean ====
section
/-! DEFINITION. The syntax whole: the one instruction of spec/opcode_table.json, the statements of a
host program (30_encoding.md R67) and the two commands of the host (41_host_procedures.md R110, R111). -/

namespace Sys2Proof

/-- The instructions of the block: one constructor per row of spec/opcode_table.json
(30_encoding.md R63, 40_mix.md R94). -/
inductive Instr where
  /-- `MIX m, c` (40_mix.md R80). -/
  | mix (m c : Word)
deriving DecidableEq, Repr

/-- What the host drives on `out_ready` in a raw cycle (70_reset_and_hazards.md R147). -/
inductive ReadyRule where
  /-- A fixed level. -/
  | level (b : Bool)
  /-- `out_ready = out_valid` of the same cycle, which R147 permits. -/
  | sameAsOutValid
  /-- `out_ready = in_ready` of the same cycle, the combinational loop that R147 forbids. -/
  | sameAsInReady
deriving DecidableEq, Repr

/-- One cycle of port values of any kind (20_memory.md R41). The model's own statement (log 9):
the statements of 30_encoding.md R67 cannot write, for example, an offer in a reset cycle. -/
structure RawCycle where
  /-- `rst` -/
  rst : Bool
  /-- `in_valid` -/
  inValid : Bool
  /-- `in_m` -/
  inM : Word
  /-- `in_c` -/
  inC : Word
  /-- how `out_ready` is driven -/
  outReady : ReadyRule
  /-- whether the host uses the value of `out_r` in this cycle (70_reset_and_hazards.md R149) -/
  readsOut : Bool
deriving DecidableEq, Repr

/-- A statement of a host program (30_encoding.md R67). -/
inductive Stmt where
  /-- `RESET` -/
  | reset
  /-- `MIX m, c`, written as its IN64 beat (30_encoding.md R60, R66) -/
  | mix (beat : DWord)
  /-- `IDLE n` -/
  | idle (n : Nat)
  /-- `READY b` -/
  | ready (b : Bool)
  /-- `DRAIN` -/
  | drain
  /-- `TAKE -> name` -/
  | take (name : Text)
  /-- one raw cycle (the model's own, log 9) -/
  | raw (c : RawCycle)
deriving DecidableEq, Repr

/-- A host program: statements run from the first to the last (30_encoding.md R67). -/
abbrev Program := List Stmt

/-- The command-style entry points (41_host_procedures.md R110, R111). -/
inductive Command where
  | search
  | avalanche
deriving DecidableEq, Repr

end Sys2Proof
end

