-- ==== Sys2Proof/WellFormed.lean ====
section
/-! DEFINITION. What a well-formed instruction and a well-formed host program are. -/

namespace Sys2Proof

/-- Every instruction the type can write is well formed: "No encoding is illegal, reserved, a hint or
custom" (30_encoding.md R64), and the operand widths are in the type. -/
def Instr.wellFormed : Instr → Bool
  | .mix _ _ => true

/-- A raw cycle does not close the combinational loop of 70_reset_and_hazards.md R147. -/
def RawCycle.loopFree (c : RawCycle) : Bool :=
  match c.outReady with
  | .level _ => true
  | .sameAsOutValid => true
  | .sameAsInReady => false

/-- A statement does not close the combinational loop of 70_reset_and_hazards.md R147. -/
def Stmt.loopFree : Stmt → Bool
  | .reset => true
  | .mix _ => true
  | .idle _ => true
  | .ready _ => true
  | .drain => true
  | .take _ => true
  | .raw c => c.loopFree

/-- The first cycle the program drives has `rst = 1`. 70_reset_and_hazards.md R144 asks for a reset edge
before the block's "first use" and does not say whether a cycle that offers nothing is a use. DESIGN
CHOICE: every cycle counts as one, so that a program with `IDLE 1` or a DRAIN before its RESET is ill
formed; only statements that take no cycle may stand before it, and a program that drives no cycle does
not reset (log 27). -/
def Program.resetsFirst : Program → Bool
  | [] => false
  | .reset :: _ => true
  | .raw c :: _ => c.rst
  | .ready _ :: rest => Program.resetsFirst rest
  | .take _ :: rest => Program.resetsFirst rest
  | .mix _ :: _ => false
  | .idle n :: rest => if n = 0 then Program.resetsFirst rest else false
  | .drain :: _ => false

/-- A host program fit for a block that has just been powered up: it resets first
(70_reset_and_hazards.md R144, read as log 27 says) and closes no combinational loop (R147). -/
def Program.wellFormed (p : Program) : Bool :=
  Program.resetsFirst p && p.all Stmt.loopFree

end Sys2Proof
end

