-- ==== Sys2Proof/Decode.lean ====
section
/-! DEFINITION. The transaction formats IN64 and OUT32 and the operation map (30_encoding.md R60-R65):
the decoder, total on every beat, and after it the encoder. -/

namespace Sys2Proof

/-- Why a row of bits is no input beat. -/
inductive DecodeError where
  /-- The row has another length than 64 bits; the input format has a fixed length, with no short and no
  long form (30_encoding.md R65). -/
  | notABeatsLength (nbits : Nat)
deriving DecidableEq, Repr

/-- The field `m = beat[63:32]` (30_encoding.md R60). -/
def messageField (beat : DWord) : Word := beat.extractLsb' 32 32

/-- The field `c = beat[31:0]` (30_encoding.md R60). -/
def chainField (beat : DWord) : Word := beat.extractLsb' 0 32

/-- The field `r = out_r[31:0]` of the output format OUT32 (30_encoding.md R61). -/
def resultField (beat : BitVec 32) : Word := beat.extractLsb' 0 32

/-- Every beat is a MIX; the decoder of beats is total and refuses none (30_encoding.md R63, R64). -/
def decodeBeat (beat : DWord) : Instr := .mix (messageField beat) (chainField beat)

/-- The beat of a row of bits, bit 0 of the number bit 0 of the beat. A row of any other length than 64
is no beat, "a fixed length (64-bit input beat, 32-bit output beat)" (30_encoding.md R65). -/
def beatOfBits (nbits w : Nat) : Except DecodeError DWord :=
  if nbits = 64 then .ok (BitVec.ofNat 64 w) else .error (.notABeatsLength nbits)

/-- The decoder on a row of bits, rejecting by name what is no beat. -/
def decodeBits (nbits w : Nat) : Except DecodeError Instr :=
  match beatOfBits nbits w with
  | .ok beat => .ok (decodeBeat beat)
  | .error e => .error e

/-- The length of the row of bits that carries `nbits` bits of the opcode table: the table may give fewer
than a whole beat, and then the row is the 64-bit beat whose other bits are 0. The row's length and this
filling are the opcode table's numbering, no format of the block (log 13). -/
def tableRowLength (nbits : Nat) : Nat := max nbits 64

/-- The beat that carries the table's bits; more bits than 64 make no beat (30_encoding.md R65;
log 13). -/
def tableBeat (nbits w : Nat) : Except DecodeError DWord :=
  beatOfBits (tableRowLength nbits) (w % 2 ^ nbits)

/-- The instruction the decoder reads from the bits of a row of spec/opcode_table.json, laid out as one
64-bit beat (log 13). -/
def decodeTableWord (nbits w : Nat) : Option Instr :=
  match decodeBits (tableRowLength nbits) (w % 2 ^ nbits) with
  | .ok i => some i
  | .error _ => none

/-- `beat[63:0] = {m, c}` (30_encoding.md R60). -/
def beatOf (m c : Word) : DWord := m ++ c

/-- The IN64 beat of an instruction (30_encoding.md R60, R63). -/
def encode : Instr → DWord
  | .mix m c => beatOf m c

/-- The OUT32 beat of a result (30_encoding.md R61). -/
def encodeResult (r : Word) : BitVec 32 := r

end Sys2Proof
end

