-- ==== Sys2Proof/Machine/State.lean ====
section
/-! DEFINITION. The state of the block and, beside it, what the model keeps of the host that drives it.
10_state.md R25 gives the block exactly three stage registers; every other field is the model's own
(INVENTORY.md, State; log 1). -/

namespace Sys2Proof.Machine

/-- The payload of stage `S1`: the three cross terms (10_state.md R25, R26). -/
structure Terms where
  /-- `S1.w` -/
  w : DWord
  /-- `S1.x` -/
  x : DWord
  /-- `S1.y` -/
  y : DWord
deriving DecidableEq, Repr

/-- The three stage registers (10_state.md R25). A payload is present exactly while the stage's valid
bit is 1 (10_state.md R29). -/
structure Block where
  /-- `S1`: the cross terms `w`, `x`, `y` -/
  s1 : Option Terms
  /-- `S2`: the accumulated double-word `z` -/
  s2 : Option DWord
  /-- `S3`: the chain-prime `r` -/
  s3 : Option Word
deriving DecidableEq, Repr

/-- The values the host drives on the input ports in one cycle (20_memory.md R41). -/
structure Ports where
  /-- `rst` -/
  rst : Bool
  /-- `in_valid` -/
  inValid : Bool
  /-- `in_m` -/
  inM : Word
  /-- `in_c` -/
  inC : Word
  /-- `out_ready` -/
  outReady : Bool
deriving DecidableEq, Repr

/-- What the model keeps of the host (the model's own, log 1). -/
structure HostSide where
  /-- the statements still to be run (30_encoding.md R67) -/
  prog : Program
  /-- the `out_ready` value the last READY statement set (30_encoding.md R67) -/
  ready : Bool
  /-- the names of the TAKE statements run so far, in order (30_encoding.md R67) -/
  names : List Text
  /-- the results received so far, in order of delivery -/
  results : List Word
  /-- the values of `out_r` read by raw cycles (70_reset_and_hazards.md R149) -/
  seen : List Word
deriving DecidableEq, Repr

/-- The block in its surroundings: the pipeline is the spec's state, the other fields are the model's
own (log 1). -/
structure State where
  /-- the values on the input ports in the cycle before the coming edge (10_state.md R32) -/
  pins : Ports
  /-- the stage registers (10_state.md R25) -/
  block : Block
  /-- the pairs accepted since the last reset, oldest first (20_memory.md R53, R54) -/
  accepted : List Pair
  /-- the results delivered since the last reset, oldest first (20_memory.md R53, R54) -/
  delivered : List Word
  /-- the host -/
  host : HostSide
  /-- the number of edges run, which indexes the free values -/
  cycle : Nat
deriving DecidableEq, Repr

/-- The block raises no exception: "The block raises no synchronous exception" (60_exceptions.md R120),
so no fault exists and this type has no constructor (log 19). -/
inductive Fault where
deriving DecidableEq, Repr

/-- Why the model gives a step no meaning (60_exceptions.md R132). -/
inductive Refusal where
  /-- Raised by an arm of `exec` whose instruction has no meaning yet. No arm does. Safe. -/
  | notModelled (mnemonic : String)
  /-- Raised when the host reads `out_r` in a cycle with `out_valid = 0` (60_exceptions.md R132,
  93_implementation_defined.md U1). Safe: a claim about such a run becomes unprovable. -/
  | outRWhileNotValid
  /-- Raised when the host drives `out_ready` from `in_ready` of the same cycle (60_exceptions.md R132,
  70_reset_and_hazards.md R147, 93_implementation_defined.md U5). Safe: a claim about such a run
  becomes unprovable. -/
  | combinationalLoop
deriving DecidableEq, Repr

/-- The stage registers after an edge with `rst = 1`: every valid bit 0, every payload `none`
(10_state.md R33). -/
def Block.empty : Block := { s1 := none, s2 := none, s3 := none }

/-- The host before it has done anything: no program, and `out_ready` "initially 1"
(30_encoding.md R67; log 2, log 5). -/
def HostSide.initial : HostSide :=
  { prog := [], ready := true, names := [], results := [], seen := [] }

/-- The port values the reset state names; every step drives the ports anew (log 5). -/
def Ports.initial : Ports :=
  { rst := false, inValid := false, inM := 0, inC := 0, outReady := true }

/-- The machine right after reset (10_state.md R33, 70_reset_and_hazards.md R141). -/
def State.reset : State :=
  { pins := Ports.initial, block := Block.empty, accepted := [], delivered := [],
    host := HostSide.initial, cycle := 0 }

end Sys2Proof.Machine
end

