-- ==== Sys2Proof/Machine/Operands.lean ====
section
/-! DEFINITION. The one operand form of the block: a 32-bit port value, widened to 64 bits by zero
extension before any arithmetic (30_encoding.md R62). -/

namespace Sys2Proof.Machine

/-- `mm = zext_64(m)`, `cc = zext_64(c)`: no operand is sign-extended, scaled or shifted by the encoding
(30_encoding.md R62). -/
def operand (v : Word) : DWord := zext64 v

/-- The beat on the input buses, `{in_m, in_c}` (30_encoding.md R60). -/
def Ports.beat (p : Ports) : DWord := beatOf p.inM p.inC

end Sys2Proof.Machine
end

