-- ==== Sys2Proof/Machine/Datapath.lean ====
section
/-! DEFINITION. The arithmetic of the Mixer (40_mix.md R80-R86). All of it is unsigned and modulo 2^64;
shifts are logical (40_mix.md R87). -/

namespace Sys2Proof.Machine

/-- `w(c)` (40_mix.md R81). -/
def termW (c : Word) : DWord := operand c * operand c

/-- `x(m, c)`, the doubled cross term (40_mix.md R82). -/
def termX (m c : Word) : DWord := (operand m * operand c) <<< 1

/-- `y(m)` (40_mix.md R83). -/
def termY (m : Word) : DWord := operand m * operand m

/-- `MixTerms(m, c)`, what stage `S1` takes (40_mix.md R83). -/
def mixTerms (m c : Word) : Terms := { w := termW c, x := termX m c, y := termY m }

/-- `MixAccumulate(w, x, y)`, what stage `S2` takes (40_mix.md R84). -/
def mixAccumulate (t : Terms) : DWord := (t.w >>> 32) + t.x + (t.y <<< 32)

/-- `MixExtract(z) = trunc_32(z >> 16)`, what stage `S3` takes (40_mix.md R85). -/
def mixExtract (z : DWord) : Word := trunc32 (z >>> 16)

/-- `Mixer(m, c)` (40_mix.md R80). -/
def mixer (m c : Word) : Word := mixExtract (mixAccumulate (mixTerms m c))

/-- The Mixer on an operand pair. -/
def mixPair (p : Pair) : Word := mixer p.1 p.2

/-- `Q = B * B` in 128 bits, for `B` the beat `{m, c}` (40_mix.md R86). -/
def beatSquare (m c : Word) : QWord := zext128 (beatOf m c) * zext128 (beatOf m c)

/-- The lane `Z3 = Q[127:96]` (40_mix.md R86). -/
def laneZ3 (q : QWord) : Word := q.extractLsb' 96 32

/-- The lane `Z2 = Q[95:64]` (40_mix.md R86). -/
def laneZ2 (q : QWord) : Word := q.extractLsb' 64 32

/-- The lane `Z1 = Q[63:32]` (40_mix.md R86). -/
def laneZ1 (q : QWord) : Word := q.extractLsb' 32 32

/-- The lane `Z0 = Q[31:0]` (40_mix.md R86). -/
def laneZ0 (q : QWord) : Word := q.extractLsb' 0 32

end Sys2Proof.Machine
end

