-- ==== Sys2Proof/Machine/Ops.lean ====
section
/-! DEFINITION. The named operations: the output ports, the two handshakes, the edge of 20_memory.md R48,
and the edge with the host's record of it. The block has no exception to take and none to return
from (60_exceptions.md R120, R125); its one shared entry is the reset edge, the first case of
`Block.edge`. -/

namespace Sys2Proof.Machine

/-- `S1.v` (10_state.md R25, R29). -/
def Block.v1 (b : Block) : Bool := b.s1.isSome

/-- `S2.v` (10_state.md R25, R29). -/
def Block.v2 (b : Block) : Bool := b.s2.isSome

/-- `S3.v` (10_state.md R25, R29). -/
def Block.v3 (b : Block) : Bool := b.s3.isSome

/-- `occ = S1.v + S2.v + S3.v` (10_state.md R31). -/
def Block.occ (b : Block) : Nat := b.v1.toNat + b.v2.toNat + b.v3.toNat

/-- The block is quiescent when `occ = 0` (10_state.md R31). -/
def Block.quiescent (b : Block) : Bool := b.occ == 0

/-- `en = (S3.v == 0) or (out_ready == 1)` (20_memory.md R42). -/
def Block.en (b : Block) (outReady : Bool) : Bool := !b.v3 || outReady

/-- `in_ready = (rst == 0) and en` (20_memory.md R42). -/
def Block.inReady (b : Block) (rst outReady : Bool) : Bool := !rst && b.en outReady

/-- `out_valid = (rst == 0) and (S3.v == 1)` (20_memory.md R43). -/
def Block.outValid (b : Block) (rst : Bool) : Bool := !rst && b.v3

/-- `out_r`, which has no value while `out_valid = 0` (20_memory.md R43, 10_state.md R29). -/
def Block.outR (b : Block) (rst : Bool) : Option Word := if b.outValid rst then b.s3 else none

/-- An accept: `in_valid = 1` and `in_ready = 1` (20_memory.md R44). -/
def Block.accepts (b : Block) (p : Ports) : Bool := p.inValid && b.inReady p.rst p.outReady

/-- A deliver: `out_valid = 1` and `out_ready = 1` (20_memory.md R44). -/
def Block.delivers (b : Block) (p : Ports) : Bool := b.outValid p.rst && p.outReady

/-- The pair accepted at the edge, if one is (20_memory.md R44, R45). -/
def Block.acceptance (b : Block) (p : Ports) : Option Pair :=
  if b.accepts p then some (p.inM, p.inC) else none

/-- The result delivered at the edge, if one is (20_memory.md R44). -/
def Block.delivery (b : Block) (p : Ports) : Option Word :=
  if b.delivers p then b.s3 else none

/-- Every stage moves one place (20_memory.md R47, the case `en == 1` of R48). -/
def Block.advance (b : Block) (p : Ports) : Block :=
  { s3 := b.s2.map mixExtract
    s2 := b.s1.map mixAccumulate
    s1 := if p.inValid then some (mixTerms p.inM p.inC) else none }

/-- The stage registers after a rising edge of `clk` (20_memory.md R48). -/
def Block.edge (b : Block) (p : Ports) : Block :=
  if p.rst then Block.empty
  else if b.en p.outReady then b.advance p
  else b

/-- The stage registers after a row of edges. -/
def Block.edges (b : Block) (ps : List Ports) : Block := ps.foldl Block.edge b

/-- The host receives what an edge delivers. -/
def HostSide.receive (h : HostSide) (r : Option Word) : HostSide :=
  { h with results := h.results ++ r.toList }

/-- TAKE: the k-th name is bound to the k-th result received (30_encoding.md R67, 20_memory.md R53;
log 12). -/
def HostSide.bindings (h : HostSide) : List (Text × Word) := h.names.zip h.results

/-- One rising edge with the port values of `pins`: the registers change as 20_memory.md R48 says, and
the record of accepts and delivers restarts at a reset (70_reset_and_hazards.md R141). -/
def State.clock (s : State) : State :=
  { s with
    block := s.block.edge s.pins
    accepted := if s.pins.rst then [] else s.accepted ++ (s.block.acceptance s.pins).toList
    delivered := if s.pins.rst then [] else s.delivered ++ (s.block.delivery s.pins).toList
    host := s.host.receive (s.block.delivery s.pins)
    cycle := s.cycle + 1 }

/-- A row of edges with given port values. -/
def State.clocks (s : State) (ps : List Ports) : State :=
  ps.foldl (fun t p => State.clock { t with pins := p }) s

/-- The host offers a pair in this cycle (20_memory.md R41). -/
def State.offer (s : State) (m c : Word) : State :=
  { s with pins := { s.pins with inValid := true, inM := m, inC := c } }

end Sys2Proof.Machine
end

