-- ==== Sys2Proof/Machine/Mix.lean ====
section
/-! DEFINITION. The meaning of MIX (40_mix.md R80, R92; 30_encoding.md R66, R67). -/

namespace Sys2Proof.Machine

/-- `MIX m, c` for one cycle: the pair is offered, and the edge follows. It is accepted when `in_ready = 1`;
otherwise nothing of it has happened and the host program offers it again in the next cycle
(30_encoding.md R67; log 10). `rst` and `out_ready` are those of the cycle. -/
def execMix (m c : Word) (s : State) : Host.Outcome State Fault Refusal :=
  .next (s.offer m c).clock

end Sys2Proof.Machine
end

