-- ==== Sys2Proof/Machine/Dispatch.lean ====
section
/-! DEFINITION. The dispatch of an instruction to its meaning, one arm per row of spec/opcode_table.json. -/

namespace Sys2Proof.Machine

-- MIX is the only operation (30_encoding.md R63, 40_mix.md R94)
def exec (i : Instr) (s : State) : Host.Outcome State Fault Refusal :=
  match i with
  | .mix m c => Sys2Proof.Machine.execMix m c s

end Sys2Proof.Machine
end

