-- ==== Sys2Proof/Config.lean ====
section
/-! DEFINITION. The parameters of the block and of the host procedures (00_scope.md R7,
41_host_procedures.md R100), and the free values: what the spec leaves open and no proof may know. -/

namespace Sys2Proof

/-- `PIPE_DEPTH`, the number of stage registers, which is also the in-flight capacity (00_scope.md R7). -/
def Config.pipeDepth : Nat := 3

/-- The latency in cycles without a stall (00_scope.md R7, 70_reset_and_hazards.md R151). -/
def Config.latency : Nat := 3

/-- `SEARCH_DOMAIN`, the number of candidate messages (41_host_procedures.md R100). Irreducible, so
that no elaboration counts out the 2^32 candidates one by one. -/
@[irreducible] def Config.searchDomain : Nat := 2 ^ 32

/-- `AVALANCHE_ROWS = 1 + 32 + 32` (41_host_procedures.md R100). -/
def Config.avalancheRows : Nat := 65

/-- `PROGRESS_INTERVAL` (41_host_procedures.md R100, R105). The model does not observe a progress
report (log 15), so nothing reads this parameter. -/
def Config.progressInterval : Nat := 2 ^ 24

/-- `AVALANCHE_MARKER`, three asterisks (41_host_procedures.md R100). -/
def Config.avalancheMarker : Text := ['*', '*', '*']

/-- FREE. The number behind `USAGE_EXIT_STATUS` (41_host_procedures.md R100, R112): OPEN. -/
opaque Config.usageSeed : Int

/-- `USAGE_EXIT_STATUS`: any non-zero integer, and nothing more is known of it
(41_host_procedures.md R112, 93_implementation_defined.md U8; log 14). -/
def Config.usageExitStatus : Int :=
  if 0 ≤ Config.usageSeed then Config.usageSeed + 1 else Config.usageSeed

/-- FREE. The text of the usage message (41_host_procedures.md R112, 91_not_in_source.md N7; log 15).
Whether it differs between the two commands or the kinds of error is open too, so it may depend on
the command and on its arguments. -/
opaque Config.usageText : Command → List Text → Text

/-- FREE. The value on `rst` in a cycle that no host program determines (log 3). -/
opaque Config.freeRst : Nat → Bool

/-- FREE. The value on `in_valid` in a cycle that no host program determines (log 3). -/
opaque Config.freeInValid : Nat → Bool

/-- FREE. The value on `in_m` in a cycle in which no statement gives it one (log 3, log 4). -/
opaque Config.freeInM : Nat → Word

/-- FREE. The value on `in_c` in a cycle in which no statement gives it one (log 3, log 4). -/
opaque Config.freeInC : Nat → Word

end Sys2Proof
end

