-- ==== Sys2Proof/Machine/HostProgram.lean ====
section
/-! DEFINITION. The host's side of a cycle: how a host program turns into the port values of the next
cycle (30_encoding.md R67), which is where the machine finds its next operation, and a host that
reacts to the block (70_reset_and_hazards.md R147). -/

namespace Sys2Proof.Machine

/-- A cycle that no statement determines: `out_ready` keeps the value that READY set, "for all following
cycles" (30_encoding.md R67); the other ports are free (log 3). -/
def freePorts (n : Nat) (outReady : Bool) : Ports :=
  { rst := Config.freeRst n, inValid := Config.freeInValid n, inM := Config.freeInM n,
    inC := Config.freeInC n, outReady := outReady }

/-- A cycle that offers nothing; `in_m` and `in_c` are free, and without effect (20_memory.md R45;
log 4). -/
def quietPorts (n : Nat) (rst outReady : Bool) : Ports :=
  { rst := rst, inValid := false, inM := Config.freeInM n, inC := Config.freeInC n,
    outReady := outReady }

/-- A cycle of `MIX m, c` (30_encoding.md R67). -/
def offerPorts (beat : DWord) (outReady : Bool) : Ports :=
  { rst := false, inValid := true, inM := messageField beat, inC := chainField beat,
    outReady := outReady }

/-- The host drives `p` in this cycle and has `rest` still to run. -/
def State.drivePins (s : State) (p : Ports) (rest : Program) : State :=
  { s with pins := p, host := { s.host with prog := rest } }

/-- READY b (30_encoding.md R67). -/
def State.setReady (s : State) (b : Bool) : State :=
  { s with host := { s.host with ready := b } }

/-- TAKE -> name (30_encoding.md R67). -/
def State.takeName (s : State) (name : Text) : State :=
  { s with host := { s.host with names := s.host.names ++ [name] } }

/-- The host has read `out_r` in this cycle (70_reset_and_hazards.md R149). -/
def State.see (s : State) (r : Word) : State :=
  { s with host := { s.host with seen := s.host.seen ++ [r] } }

/-- The level a raw cycle drives on `out_ready`; the combinational loop has none
(70_reset_and_hazards.md R147, 60_exceptions.md R132). -/
def RawCycle.outReadyLevel (c : RawCycle) (b : Block) : Except Refusal Bool :=
  match c.outReady with
  | .level v => .ok v
  | .sameAsOutValid => .ok (b.outValid c.rst)
  | .sameAsInReady => .error .combinationalLoop

/-- The port values of a raw cycle, for a level on `out_ready`. -/
def RawCycle.ports (c : RawCycle) (outReady : Bool) : Ports :=
  { rst := c.rst, inValid := c.inValid, inM := c.inM, inC := c.inC, outReady := outReady }

/-- The host uses the value of `out_r`, which exists only while `out_valid = 1`
(70_reset_and_hazards.md R149, 60_exceptions.md R132). -/
def State.readOutR (s : State) (rst : Bool) : Except Refusal State :=
  match s.block.outR rst with
  | some r => .ok (s.see r)
  | none => .error .outRWhileNotValid

/-- A raw cycle: the level of `out_ready`, then the read of `out_r` if the host makes one, then the
port values. -/
def State.driveRaw (s : State) (c : RawCycle) (rest : Program) : Except Refusal State :=
  match RawCycle.outReadyLevel c s.block with
  | .error e => .error e
  | .ok v =>
    match (if c.readsOut then s.readOutR c.rst else .ok s) with
    | .error e => .error e
    | .ok t => .ok (t.drivePins (RawCycle.ports c v) rest)

/-- The host has `rest` still to run. -/
def State.withProg (s : State) (rest : Program) : State :=
  { s with host := { s.host with prog := rest } }

/-- What a statement does when it is next: either it takes no cycle, and this is the state after it; or it
takes the coming cycle, and this is the state with its port values driven, or why it is refused. -/
inductive Turn where
  | instant (s : State)
  | cycle (driven : Except Refusal State)

/-- The expansion of a statement, `rest` being what follows it (30_encoding.md R67). READY and TAKE take no
cycle, and neither do `IDLE 0` and the DRAIN of an empty block (log 11); MIX stays in the program
until the edge that accepts it, DRAIN until `occ = 0`. -/
def State.turn (s : State) (rest : Program) : Stmt → Turn
  | .reset => .cycle (.ok (s.drivePins (quietPorts s.cycle true s.host.ready) rest))
  | .mix beat =>
    .cycle (.ok (s.drivePins (offerPorts beat s.host.ready)
      (if s.block.inReady false s.host.ready then rest else .mix beat :: rest)))
  | .idle 0 => .instant s
  | .idle (k + 1) =>
    .cycle (.ok (s.drivePins (quietPorts s.cycle false s.host.ready) (.idle k :: rest)))
  | .ready b => .instant (s.setReady b)
  | .drain =>
    if s.block.quiescent then .instant s
    else .cycle (.ok (s.drivePins (quietPorts s.cycle false true) (.drain :: rest)))
  | .take name => .instant (s.takeName name)
  | .raw c => .cycle (s.driveRaw c rest)

/-- The host drives the ports of the next cycle: the statements that take no cycle, and then the cycle of
the first one that takes one (30_encoding.md R67). After the program's end `out_ready` keeps the READY
level (R67), and the other ports are free (log 3). -/
def State.drive : Program → State → Except Refusal State
  | [], s => .ok (s.drivePins (freePorts s.cycle s.host.ready) [])
  | st :: rest, s =>
    match s.turn rest st with
    | .instant t => State.drive rest t
    | .cycle driven => driven

/-- The host goes on to the next statement that takes a cycle. The statements before it take none, "no
cycle of its own", so they are run as soon as they are reached, before any further edge
(30_encoding.md R67; log 11). -/
def State.proceed : Program → State → State
  | [], s => s.withProg []
  | st :: rest, s =>
    match s.turn rest st with
    | .instant t => State.proceed rest t
    | .cycle _ => s.withProg (st :: rest)

/-- A program is placed from outside (log 2); its statements that take no cycle are run at once. DESIGN
CHOICE: it goes on with the host as it stands. The READY level, the names and the results of what ran
before are kept, so that "initially 1" and the count of TAKE are those of the first program after
`State.reset` and do not start anew with a second one (log 26). -/
def State.load (s : State) (prog : Program) : State := State.proceed prog s

/-- After an edge the host goes on with its program. -/
def State.afterEdge (s : State) : State := s.load s.host.prog

/-- After an edge the host goes on with its program; a refusal stays what it is. -/
def hostProceeds : Host.Outcome State Fault Refusal → Host.Outcome State Fault Refusal
  | .next t => .next t.afterEdge
  | .fault f => .fault f
  | .refused r => .refused r

/-- The statement `MIX m, c` (30_encoding.md R66). -/
def Stmt.mixOf (m c : Word) : Stmt := .mix (encode (.mix m c))

/-- What a host can know when it chooses the ports of a cycle, besides the outputs of that cycle. -/
structure HostView where
  /-- how many edges have passed -/
  cycle : Nat
  /-- what it has had accepted since the last reset -/
  accepted : List Pair
  /-- what has been delivered to it since the last reset -/
  delivered : List Word
deriving DecidableEq, Repr

/-- The host's view of a state. -/
def State.view (s : State) : HostView :=
  { cycle := s.cycle, accepted := s.accepted, delivered := s.delivered }

/-- A host that reacts to the block. Its `out_ready` may depend on `out_valid` and `out_r`, and its offer on
`in_ready` besides; that `out_ready` cannot depend on `in_ready` is in the types
(70_reset_and_hazards.md R147; log 23). A strategy is no part of State. -/
structure Strategy where
  /-- `rst` -/
  rst : HostView → Bool
  /-- `out_ready`, from `out_r` where `out_valid = 1` -/
  outReady : HostView → Option Word → Bool
  /-- `in_valid`, `in_m`, `in_c`, from `out_r` where `out_valid = 1` and from `in_ready` -/
  offer : HostView → Option Word → Bool → Option Pair

/-- The port values a reacting host drives: first `rst`, which with the state gives `out_valid` and
`out_r`; then `out_ready`, which gives `in_ready`; then the offer (20_memory.md R42, R43). -/
def Strategy.ports (h : Strategy) (s : State) : Ports :=
  let rst := h.rst s.view
  let out := s.block.outR rst
  let outReady := h.outReady s.view out
  match h.offer s.view out (s.block.inReady rst outReady) with
  | some (m, c) => { rst := rst, inValid := true, inM := m, inC := c, outReady := outReady }
  | none =>
    { rst := rst, inValid := false, inM := Config.freeInM s.cycle, inC := Config.freeInC s.cycle,
      outReady := outReady }

/-- One cycle and its edge under a reacting host. -/
def Strategy.clock (h : Strategy) (s : State) : State :=
  State.clock { s with pins := h.ports s }

/-- `n` cycles under a reacting host. -/
def Strategy.run (h : Strategy) : Nat → State → State
  | 0, s => s
  | n + 1, s => h.run n (h.clock s)

end Sys2Proof.Machine
end

