-- ==== Sys2Proof/Machine/Step.lean ====
section
/-! DEFINITION. One step of the machine: one cycle of driven ports, the rising edge that ends it, and
the host's going on to its next statement that takes a cycle. -/

namespace Sys2Proof.Machine

/-- The host drives the ports of the cycle; an offered beat is decoded and executed (30_encoding.md R63,
20_memory.md R44), and a cycle without an offer is the edge alone (20_memory.md R48). After the edge
the host runs what takes no cycle (30_encoding.md R67). -/
def step (s : State) : Host.Outcome State Fault Refusal :=
  match State.drive s.host.prog s with
  | .error e => .refused e
  | .ok t => hostProceeds (if t.pins.inValid then exec (decodeBeat t.pins.beat) t else .next t.clock)

/-- The state with the instruction of the given bits as the next statement of the host program, so that
the very next step offers it (log 2). Bits that make no beat place nothing (log 13). -/
def State.withFetchWord (s : State) (nbits w : Nat) : State :=
  match tableBeat nbits w with
  | .ok beat => s.withProg (.mix beat :: s.host.prog)
  | .error _ => s

end Sys2Proof.Machine
end

