-- ==== Sys2Proof/Machine/HexText.lean ====
section
/-! DEFINITION. The texts of the host: hexadecimal output and input (41_host_procedures.md R109, R113)
and the assembly form of MIX (30_encoding.md R66). A text is its characters in order. -/

namespace Sys2Proof.Machine

/-- The lowercase hexadecimal digit of a value below 16 (41_host_procedures.md R109). -/
def hexDigit (d : Nat) : Char :=
  ['0', '1', '2', '3', '4', '5', '6', '7', '8', '9', 'a', 'b', 'c', 'd', 'e', 'f'].getD d '0'

/-- Exactly 8 lowercase hexadecimal digits, most significant first, zero-padded, no prefix
(41_host_procedures.md R109). -/
def hex8 (v : Word) : Text :=
  [7, 6, 5, 4, 3, 2, 1, 0].map fun k => hexDigit (v.toNat / 16 ^ k % 16)

/-- The value of a hexadecimal digit `0-9`, `a-f` or `A-F` (41_host_procedures.md R113). -/
def hexDigitValue (ch : Char) : Option Nat :=
  let n := ch.toNat
  if 48 ≤ n ∧ n ≤ 57 then some (n - 48)
  else if 97 ≤ n ∧ n ≤ 102 then some (n - 87)
  else if 65 ≤ n ∧ n ≤ 70 then some (n - 55)
  else none

/-- The value of a row of hexadecimal digits, most significant first, from a value read so far; none
where a character is no digit (41_host_procedures.md R113). -/
def hexValue : Nat → Text → Option Nat
  | acc, [] => some acc
  | acc, ch :: rest =>
    match hexDigitValue ch with
    | some d => hexValue (acc * 16 + d) rest
    | none => none

/-- The text after an optional `0x` or `0X` (41_host_procedures.md R113). -/
def dropHexPrefix : Text → Text
  | '0' :: 'x' :: rest => rest
  | '0' :: 'X' :: rest => rest
  | t => t

/-- The 32-bit value of one or more hexadecimal digits and nothing else (41_host_procedures.md R113). -/
def parseDigits : Text → Option Word
  | [] => none
  | ch :: rest =>
    match hexValue 0 (ch :: rest) with
    | some n => if n < 2 ^ 32 then some (BitVec.ofNat 32 n) else none
    | none => none

/-- The value of an argument; none is "unparsable" (41_host_procedures.md R113; log 16). -/
def parseHex (t : Text) : Option Word := parseDigits (dropHexPrefix t)

/-- The assembly form `MIX <m>, <c>` (30_encoding.md R66). -/
def asmText : Instr → Text
  | .mix m c => ['M', 'I', 'X', ' '] ++ hex8 m ++ [',', ' '] ++ hex8 c

/-- The text before the first comma and the text after it. -/
def splitComma : Text → Option (Text × Text)
  | [] => none
  | ch :: rest =>
    if ch = ',' then some ([], rest)
    else
      match splitComma rest with
      | some (a, b) => some (ch :: a, b)
      | none => none

/-- The two operands of an assembly text, `<m>, <c>` (30_encoding.md R66). -/
def asmOperands (t : Text) : Option (Text × Text) :=
  match splitComma t with
  | some (a, ' ' :: b) => some (a, b)
  | _ => none

/-- The instruction an assembly text stands for (30_encoding.md R66; log 24). -/
def parseAsm : Text → Option Instr
  | 'M' :: 'I' :: 'X' :: ' ' :: rest =>
    match asmOperands rest with
    | some (a, b) =>
      match parseHex a, parseHex b with
      | some m, some c => some (.mix m c)
      | _, _ => none
    | none => none
  | _ => none

end Sys2Proof.Machine
end

