-- ==== Sys2Proof/Machine/Procedures.lean ====
section
/-! DEFINITION. The host procedures SEARCH and AVALANCHE, as functions of the Mixer and as host programs
that use the block (41_host_procedures.md R101-R108). -/

namespace Sys2Proof.Machine

/-- The candidate messages `0 .. 2^32 - 1` in ascending order (41_host_procedures.md R101). -/
def searchDomain : List Word := (List.range Config.searchDomain).map (BitVec.ofNat 32)

/-- The messages of a row of candidates that the Mixer takes to the target, in their order
(41_host_procedures.md R101; R104 for a part of the domain). -/
def searchPart (candidates : List Word) (chain chainPrime : Word) : List Word :=
  candidates.filter fun i => mixer i chain == chainPrime

/-- `SEARCH(chain, chainPrime)` (41_host_procedures.md R101). It does not stop early, and its bound is an
explicit count of 2^32 (41_host_procedures.md R102). -/
def search (chain chainPrime : Word) : List Word := searchPart searchDomain chain chainPrime

/-- A split of the domain over several workers or blocks: "the union of the parts is the whole domain,
the parts are disjoint" (41_host_procedures.md R104). -/
def IsPartition (parts : List (List Word)) : Prop := parts.flatten.Perm searchDomain

/-- A search split over several workers, each part's matches on their own (41_host_procedures.md R104). -/
def searchParts (parts : List (List Word)) (chain chainPrime : Word) : List (List Word) :=
  parts.map fun part => searchPart part chain chainPrime

/-- The statements that offer a row of pairs, one MIX each (30_encoding.md R66). -/
def mixStatements (ps : List Pair) : Program := ps.map fun p => Stmt.mixOf p.1 p.2

/-- RESET, one MIX per pair, DRAIN (41_host_procedures.md R103, R107). -/
def streamProgram (ps : List Pair) : Program := .reset :: (mixStatements ps ++ [.drain])

/-- The pairs a search evaluates, in order (41_host_procedures.md R101, R103). -/
def searchPairs (candidates : List Word) (chain : Word) : List Pair :=
  candidates.map fun i => (i, chain)

/-- `SEARCH` on the block (41_host_procedures.md R103). -/
def searchProgram (chain : Word) : Program := streamProgram (searchPairs searchDomain chain)

/-- What the host emits from the results: `k - 1` when the k-th result equals the target
(41_host_procedures.md R103). The count starts at `k`. -/
def emitMatches (chainPrime : Word) : Nat → List Word → List Word
  | _, [] => []
  | k, r :: rest =>
    if r = chainPrime then BitVec.ofNat 32 k :: emitMatches chainPrime (k + 1) rest
    else emitMatches chainPrime (k + 1) rest

/-- `v XOR (1 << b)` (41_host_procedures.md R107). -/
def flipBit (v : Word) (b : Nat) : Word := v ^^^ (1#32 <<< b)

/-- The bit positions 31 down to 0 (41_host_procedures.md R107). -/
def bitsDown : List Nat := (List.range 32).reverse

/-- The pairs of the 64 flip rows: message bits first, then chain bits, most significant bit first
(41_host_procedures.md R107). -/
def flipPairs (m c : Word) : List Pair :=
  (bitsDown.map fun b => (flipBit m b, c)) ++ (bitsDown.map fun b => (m, flipBit c b))

/-- The pairs of the 65 rows, baseline first (41_host_procedures.md R107). -/
def avalanchePairs (m c : Word) : List Pair := (m, c) :: flipPairs m c

/-- A row of the avalanche table (41_host_procedures.md R107, R108). -/
structure AvalancheRow where
  /-- the row's message -/
  message : Word
  /-- the row's chaining variable -/
  chain : Word
  /-- the row's result -/
  result : Word
  /-- the flag: a flip row whose result equals the baseline result -/
  flag : Bool
deriving DecidableEq, Repr

/-- The baseline row; it carries no flag (41_host_procedures.md R108). -/
def baselineRow (m c base : Word) : AvalancheRow :=
  { message := m, chain := c, result := base, flag := false }

/-- A flip row, flagged exactly when its result equals the baseline result (41_host_procedures.md R108). -/
def flipRow (base : Word) (p : Pair) (r : Word) : AvalancheRow :=
  { message := p.1, chain := p.2, result := r, flag := r == base }

/-- `AVALANCHE(message, chain)` (41_host_procedures.md R107). -/
def avalanche (m c : Word) : List AvalancheRow :=
  baselineRow m c (mixer m c) ::
    (flipPairs m c).map fun p => flipRow (mixer m c) p (mixer p.1 p.2)

/-- `AVALANCHE` on the block: 65 MIX transactions in the order of the rows (41_host_procedures.md R107). -/
def avalancheProgram (m c : Word) : Program := streamProgram (avalanchePairs m c)

/-- The rows the host makes of the results it takes, the first of which is the baseline result
(41_host_procedures.md R107). -/
def avalancheRowsOf (m c : Word) : List Word → List AvalancheRow
  | [] => []
  | base :: rest => baselineRow m c base :: List.zipWith (flipRow base) (flipPairs m c) rest

end Sys2Proof.Machine
end

