-- ==== Sys2Proof/Machine/Command.lean ====
section
/-! DEFINITION. The command interface of the host (41_host_procedures.md R109-R114): arguments in, text and
an exit status out. It reads no file, no environment and no persisted state, and writes none (R114). -/

namespace Sys2Proof.Machine

/-- A line of standard output. Labels, separators, spacing and progress lines are not specified and not
observed (91_not_in_source.md N7, 41_host_procedures.md R105; log 15). -/
inductive OutLine where
  /-- A value shown with some label and layout (41_host_procedures.md R110). -/
  | value (digits : Text)
  /-- A line whose text is given to the letter (41_host_procedures.md R110). -/
  | exactly (text : Text)
  /-- The table's header (41_host_procedures.md R111). -/
  | header (columns : List Text)
  /-- A row of the table with what is appended to it (41_host_procedures.md R111). -/
  | row (cells : List Text) (marker : Text)
deriving DecidableEq, Repr

/-- What a command does. -/
structure CommandResult where
  /-- standard output -/
  stdout : List OutLine
  /-- standard error -/
  stderr : List Text
  /-- the exit status -/
  status : Int
  /-- the transactions the command runs on the block; that it obtains every Mixer value by one MIX
  transaction, and none by a software copy, is the model's choice (log 25) -/
  program : Program
deriving DecidableEq, Repr

/-- `MATCH! message = <8-digit hex>` (41_host_procedures.md R110). -/
def matchLine (message : Word) : Text :=
  ['M', 'A', 'T', 'C', 'H', '!', ' ', 'm', 'e', 's', 's', 'a', 'g', 'e', ' ', '=', ' '] ++ hex8 message

/-- The transactions of the search command: first the chain-prime, then one per candidate
(41_host_procedures.md R103, R110; 95_test_vectors.md P5). DESIGN CHOICE: one MIX transaction per
evaluation, where section 41 also allows a software copy of the Mixer (log 25). -/
def searchCommandProgram (msg chain : Word) : Program :=
  .reset :: Stmt.mixOf msg chain :: .drain :: .take ['c', 'p'] ::
    (mixStatements (searchPairs searchDomain chain) ++ [.drain])

/-- `search <msg_hex> <chain_hex>` on parsed arguments (41_host_procedures.md R110). DESIGN CHOICE: its
`program` obtains every Mixer value from the block (log 25); the other fields do not depend on that. -/
def runSearch (msg chain : Word) : CommandResult :=
  { stdout :=
      [.value (hex8 msg), .value (hex8 chain), .value (hex8 (mixer msg chain))] ++
        (search chain (mixer msg chain)).map fun i => .exactly (matchLine i)
    stderr := []
    status := 0
    program := searchCommandProgram msg chain }

/-- A row of the table: message, chain and result, with the marker appended to a flagged row
(41_host_procedures.md R111). -/
def avalancheLine (row : AvalancheRow) : OutLine :=
  .row [hex8 row.message, hex8 row.chain, hex8 row.result]
    (if row.flag then Config.avalancheMarker else [])

/-- `avalanche <m_hex> <c_hex>` on parsed arguments (41_host_procedures.md R111). DESIGN CHOICE: its
`program` obtains every Mixer value from the block (log 25); the other fields do not depend on that. -/
def runAvalanche (m c : Word) : CommandResult :=
  { stdout := .header [['M'], ['C'], ['C', '\'']] :: (avalanche m c).map avalancheLine
    stderr := []
    status := 0
    program := avalancheProgram m c }

/-- `UsageError`: nothing on standard output, a usage message on standard error, a non-zero status and
no transaction (41_host_procedures.md R112, 60_exceptions.md R122). The message is free, for each command
and each row of arguments on its own (log 15). -/
def usageError (cmd : Command) (args : List Text) : CommandResult :=
  { stdout := [], stderr := [Config.usageText cmd args], status := Config.usageExitStatus, program := [] }

/-- A command on its argument texts: a wrong count or an unparsable argument is a `UsageError`
(41_host_procedures.md R112, R113). -/
def runCommand (cmd : Command) (args : List Text) : CommandResult :=
  match args with
  | [a, b] =>
    match parseHex a, parseHex b with
    | some x, some y =>
      match cmd with
      | .search => runSearch x y
      | .avalanche => runAvalanche x y
    | _, _ => usageError cmd args
  | _ => usageError cmd args

end Sys2Proof.Machine
end

