-- ==== Sys2Proof/Machine/Platform.lean ====
section
/-! DEFINITION. Several blocks side by side (20_memory.md R58, 60_exceptions.md R127; log 18). -/

namespace Sys2Proof.Machine

/-- The blocks of a platform, each with its own ports, its own reset and its own host side; they share no
state (60_exceptions.md R127). -/
abbrev Platform := List State

/-- One cycle of the block at a place; the others do not change (60_exceptions.md R127). Where no block
stands there, nothing happens. -/
def Platform.stepAt (p : Platform) (i : Nat) : Host.Outcome Platform Fault Refusal :=
  match p[i]? with
  | none => .next p
  | some s =>
    match step s with
    | .next t => .next (p.set i t)
    | .fault f => .fault f
    | .refused r => .refused r

end Sys2Proof.Machine
end

