-- ==== Sys2Proof/Safety.lean ====
section
/-! DEFINITION. What a safe run of the block is, in the terms the statements use. -/

namespace Sys2Proof.Machine

/-- What the three stages hold, as the transactions they belong to: `S1` the cross terms, `S2` the
accumulated double-word, `S3` the chain-prime (10_state.md R26, R27, R28). -/
def Block.HoldsTransactions (b : Block) (p3 p2 p1 : Option Pair) : Prop :=
  b.s3 = p3.map mixPair ∧
  b.s2 = p2.map (fun p => mixAccumulate (mixTerms p.1 p.2)) ∧
  b.s1 = p1.map (fun p => mixTerms p.1 p.2)

/-- The pairs of the transactions in flight, oldest first. -/
def inFlightPairs (p3 p2 p1 : Option Pair) : List Pair := p3.toList ++ p2.toList ++ p1.toList

/-- The record and the pipeline agree: the accepted pairs are those whose results have been delivered, in
order, and then those in flight, in order (20_memory.md R53; 10_state.md R26-R28). -/
def State.Coherent (s : State) : Prop :=
  ∃ (served : List Pair) (p3 p2 p1 : Option Pair),
    s.accepted = served ++ inFlightPairs p3 p2 p1 ∧
    s.delivered = served.map mixPair ∧
    s.block.HoldsTransactions p3 p2 p1

/-- The results still to be delivered, oldest first. -/
def Block.pendingResults (b : Block) : List Word :=
  b.s3.toList ++ (b.s2.map mixExtract).toList ++
    (b.s1.map fun t => mixExtract (mixAccumulate t)).toList

/-- How many of a row of edges advance the pipeline: those with `rst = 0` and `en = 1`
(20_memory.md R47; the others among them with `rst = 0` are the stall edges of
70_reset_and_hazards.md R151). -/
def Block.advances (b : Block) : List Ports → Nat
  | [] => 0
  | p :: ps =>
    (if !p.rst && b.en p.outReady then 1 else 0) + Block.advances (b.edge p) ps

/-- No edge of the row is a reset. -/
def NoReset (ps : List Ports) : Prop := ∀ p ∈ ps, p.rst = false

/-- How many edges of the row have `out_ready = 1`. -/
def readyEdges (ps : List Ports) : Nat := ps.countP fun p => p.outReady

/-- The run is stuck on the host: `S3` holds a result, the host does not take it, and its next statement is
a MIX, which needs `in_ready = 1` (60_exceptions.md R132). -/
def State.StuckOnHost (s : State) : Prop :=
  s.block.v3 = true ∧ s.host.ready = false ∧ ∃ beat rest, s.host.prog = Stmt.mix beat :: rest

/-- The state after a number of steps, up to the first refusal (the host interface's run, in the model's own names). -/
def State.after (n : Nat) (s : State) : Host.Outcome State Fault Refusal :=
  match n with
  | 0 => .next s
  | k + 1 =>
    match step s with
    | .next t => State.after k t
    | .fault f => .fault f
    | .refused r => .refused r

end Sys2Proof.Machine
end

