-- ==== Sys2Proof/Certificates/Slice0/Obligations.lean ====
section
/-! DEFINITION. The statements for the provers. Each says which rule of spec/ it formalises. -/

open Sys2Proof Sys2Proof.Machine

/-- 30_encoding.md R60, R64: the decoder and the encoder are inverse to each other, the beat's value is
`m * 2^32 + c`, and every row of 64 bits decodes to the instruction whose beat it is, so that no
encoding is refused. (What happens to rows of another length is `RowsOfAnotherLengthAreNoBeats`.) -/
def Obligations.BeatDecodeAndEncodeAgree : Prop :=
  (∀ i : Instr, i.wellFormed = true ∧ decodeBeat (encode i) = i) ∧
  (∀ beat : DWord, encode (decodeBeat beat) = beat) ∧
  (∀ m c : Word, (encode (.mix m c)).toNat = m.toNat * 2 ^ 32 + c.toNat) ∧
  (∀ w : Nat, w < 2 ^ 64 →
    ∃ i, decodeBits 64 w = .ok i ∧ decodeTableWord 64 w = some i ∧ (encode i).toNat = w)

/-- 30_encoding.md R60, R66: beats written out from the spec decode to the operation they stand for
(beats of 30_encoding.md R66 and of programs P2 and P3 of 95_test_vectors.md). -/
def Obligations.WrittenBeatsDecodeToTheirMix : Prop :=
  decodeTableWord 64 0x0000000100000001 = some (.mix 0x00000001 0x00000001) ∧
  decodeTableWord 64 0xffffffff80000000 = some (.mix 0xffffffff 0x80000000) ∧
  decodeTableWord 64 0x123456789abcdef0 = some (.mix 0x12345678 0x9abcdef0) ∧
  decodeTableWord 64 0xdeadbeefcafebabe = some (.mix 0xdeadbeef 0xcafebabe) ∧
  decodeTableWord 64 0x000000ff00000000 = some (.mix 0x000000ff 0x00000000)

/-- 30_encoding.md R66: the assembly text of every instruction reads back as the instruction. The reader of
texts is the model's (log 24). -/
def Obligations.AssemblyTextReadsBack : Prop :=
  ∀ i : Instr, parseAsm (asmText i) = some i

/-- 30_encoding.md R63, R67, 20_memory.md R44: a step decodes the beat that the host drives and executes it at
the state with the ports driven; a cycle without an offer is the edge alone. With a MIX at the head of
the program the driven ports are `rst = 0`, `in_valid = 1`, the beat's two fields and the READY level,
and the MIX stays in the program exactly when `in_ready = 0`. Around `exec` the step adds `hostProceeds`:
after the edge the host runs the statements that take no cycle, which changes its program, its READY
level and its names alone. The last clause, what `withFetchWord` does, is the model's choice: that it
puts the beat at the head of the program is log 2, and how bits of the opcode table make a beat is
log 13. -/
def Obligations.StepRunsTheOfferedBeat : Prop :=
  (∀ s t : State, State.drive s.host.prog s = .ok t → t.pins.inValid = true →
    step s = hostProceeds (exec (decodeBeat (beatOf t.pins.inM t.pins.inC)) t)) ∧
  (∀ s t : State, State.drive s.host.prog s = .ok t → t.pins.inValid = false →
    step s = hostProceeds (.next t.clock)) ∧
  (∀ (s : State) (m c : Word) (beat : DWord) (rest : Program),
    s.host.prog = .mix beat :: rest → decodeBeat beat = .mix m c →
    step s = hostProceeds (exec (.mix m c)
      { s with
        pins := { rst := false, inValid := true, inM := m, inC := c, outReady := s.host.ready }
        host := { s.host with
          prog := if s.block.inReady false s.host.ready then rest else .mix beat :: rest } })) ∧
  (∀ t : State, ∃ rest ready names, hostProceeds (.next t) =
    .next { t with host := { t.host with prog := rest, ready := ready, names := names } }) ∧
  (∀ (s : State) (nbits w : Nat) (i : Instr), decodeTableWord nbits w = some i →
    s.withFetchWord nbits w =
      { s with host := { s.host with prog := .mix (encode i) :: s.host.prog } })

/-- 40_mix.md R80-R85, 20_memory.md R48: an offered MIX is accepted and the whole pipeline advances, when
`rst = 0` and `S3` is empty or the host takes its result. This is the whole next state: nothing else
changes. -/
def Obligations.MixIsAcceptedAndTheResultMovesOn : Prop :=
  ∀ (m c : Word) (s : State), s.pins.rst = false →
    (s.block.s3 = none ∨ s.pins.outReady = true) →
    exec (.mix m c) s = .next
      { pins := { rst := false, inValid := true, inM := m, inC := c, outReady := s.pins.outReady }
        block :=
          { s1 := some
              { w := c.setWidth 64 * c.setWidth 64
                x := (m.setWidth 64 * c.setWidth 64) <<< 1
                y := m.setWidth 64 * m.setWidth 64 }
            s2 := s.block.s1.map fun (t : Terms) => ((t.w >>> 32) + t.x + (t.y <<< 32) : DWord)
            s3 := s.block.s2.map fun (z : DWord) => ((z >>> 16 : DWord).setWidth 32 : Word) }
        accepted := s.accepted ++ [(m, c)]
        delivered := s.delivered ++ s.block.s3.toList
        host := { s.host with results := s.host.results ++ s.block.s3.toList }
        cycle := s.cycle + 1 }

/-- 20_memory.md R44, R47: an offered MIX waits, with no effect on any stage and on the record, while `S3`
holds a result that the host does not take. -/
def Obligations.MixWaitsWhileTheResultIsNotTaken : Prop :=
  ∀ (m c r : Word) (s : State), s.pins.rst = false → s.block.s3 = some r →
    s.pins.outReady = false →
    exec (.mix m c) s = .next
      { s with
        pins := { s.pins with inValid := true, inM := m, inC := c }
        cycle := s.cycle + 1 }

/-- 20_memory.md R44, 60_exceptions.md R124, 70_reset_and_hazards.md R141: a MIX offered in a cycle with
`rst = 1` is not accepted; the edge resets the block. -/
def Obligations.MixOfferedInAResetCycleIsNotAccepted : Prop :=
  ∀ (m c : Word) (s : State), s.pins.rst = true →
    exec (.mix m c) s = .next
      { s with
        pins := { s.pins with inValid := true, inM := m, inC := c }
        block := { s1 := none, s2 := none, s3 := none }
        accepted := []
        delivered := []
        cycle := s.cycle + 1 }

/-- 20_memory.md R47, R48: the step of the stage registers at every edge, in its three cases, what R48 says of
accepts and delivers under it, and that no stage is overwritten while it holds a transaction that has
not moved on or been delivered. -/
def Obligations.EveryEdgeFollowsTheStepRule : Prop :=
  ∀ (b : Block) (p : Ports),
    (p.rst = true → b.edge p = { s1 := none, s2 := none, s3 := none }) ∧
    (p.rst = false → (b.s3 = none ∨ p.outReady = true) →
      b.edge p =
        { s1 := if p.inValid then some (mixTerms p.inM p.inC) else none
          s2 := b.s1.map mixAccumulate
          s3 := b.s2.map mixExtract }) ∧
    (p.rst = false → ¬ (b.s3 = none ∨ p.outReady = true) → b.edge p = b) ∧
    (b.en p.outReady = false ↔ b.s3 ≠ none ∧ p.outReady = false) ∧
    (b.accepts p = true ↔ p.rst = false ∧ b.en p.outReady = true ∧ p.inValid = true) ∧
    (b.delivers p = true ↔ p.rst = false ∧ b.s3 ≠ none ∧ p.outReady = true) ∧
    (b.delivers p = true →
      b.en p.outReady = true ∧ (b.edge p).s3 = b.s2.map mixExtract ∧ b.delivery p = b.s3) ∧
    (p.rst = false →
      ((b.edge p).s1 = b.s1 ∨ (b.edge p).s2 = b.s1.map mixAccumulate) ∧
      ((b.edge p).s2 = b.s2 ∨ (b.edge p).s3 = b.s2.map mixExtract) ∧
      ((b.edge p).s3 = b.s3 ∨ b.delivery p = b.s3))

/-- 20_memory.md R42: `en` and `in_ready`. -/
def Obligations.InReadyFollowsS3AndOutReady : Prop :=
  ∀ (b : Block) (rst outReady : Bool),
    (b.en outReady = true ↔ b.s3 = none ∨ outReady = true) ∧
    (b.inReady rst outReady = true ↔ rst = false ∧ b.en outReady = true)

/-- 20_memory.md R43: `out_valid` and `out_r`; `out_r` has no value while `out_valid = 0`. -/
def Obligations.OutRIsS3WhileOutValid : Prop :=
  ∀ (b : Block) (rst : Bool),
    (b.outValid rst = true ↔ rst = false ∧ b.s3 ≠ none) ∧
    (b.outValid rst = true → b.outR rst = b.s3) ∧
    (b.outValid rst = false → b.outR rst = none)

/-- 10_state.md R33: the state after an edge with `rst = 1`, whatever it was before. -/
def Obligations.ResetEdgeEmptiesEveryStage : Prop :=
  ∀ (s : State), s.pins.rst = true →
    s.clock.block = { s1 := none, s2 := none, s3 := none } ∧ s.clock.block.occ = 0 ∧
    State.reset.block = { s1 := none, s2 := none, s3 := none }

/-- 70_reset_and_hazards.md R142: no handshake at a reset edge. -/
def Obligations.NoHandshakeWhileReset : Prop :=
  ∀ (b : Block) (p : Ports), p.rst = true →
    b.inReady p.rst p.outReady = false ∧ b.outValid p.rst = false ∧
    b.accepts p = false ∧ b.delivers p = false

/-- 70_reset_and_hazards.md R143: any number of reset edges, one or more, has the effect of one. -/
def Obligations.ManyResetEdgesEqualOne : Prop :=
  ∀ (b : Block) (p : Ports) (ps : List Ports), p.rst = true → (∀ q ∈ ps, q.rst = true) →
    b.edges (p :: ps) = b.edge p

/-- 70_reset_and_hazards.md R144: in the first cycle with `rst = 0` after a reset edge `in_ready = 1`, and a
pair offered then is accepted. -/
def Obligations.FirstOfferAfterResetIsAccepted : Prop :=
  ∀ (b : Block) (p q : Ports), p.rst = true → q.rst = false →
    (b.edge p).inReady q.rst q.outReady = true ∧
    (q.inValid = true → (b.edge p).acceptance q = some (q.inM, q.inC) ∧
      ((b.edge p).edge q).s1 = some (mixTerms q.inM q.inC))

/-- 70_reset_and_hazards.md R141: what was in flight at a reset is never delivered. After a reset edge and
any edges without one, the delivered results and those still in the pipeline are the results of the
pairs accepted since, in order, and of nothing else. -/
def Obligations.ResetDiscardsWhatIsInFlight : Prop :=
  ∀ (s : State) (p : Ports) (ps : List Ports), p.rst = true → NoReset ps →
    (s.clocks [p]).block.pendingResults = [] ∧
    (s.clocks [p]).accepted = [] ∧ (s.clocks [p]).delivered = [] ∧
    (s.clocks [p]).host.results = s.host.results ∧
    (s.clocks (p :: ps)).delivered ++ (s.clocks (p :: ps)).block.pendingResults =
      (s.clocks (p :: ps)).accepted.map mixPair ∧
    (s.clocks (p :: ps)).host.results = s.host.results ++ (s.clocks (p :: ps)).delivered

/-- 20_memory.md R45: at an edge that does not accept, `in_valid`, `in_m` and `in_c` have no effect; at one
that does, only the values present count. -/
def Obligations.OffersCountOnlyAtTheAcceptingEdge : Prop :=
  ∀ (b : Block) (p q : Ports), p.rst = q.rst → p.outReady = q.outReady →
    (b.accepts p = false → b.accepts q = false →
      b.edge p = b.edge q ∧ b.acceptance p = none ∧ b.acceptance q = none ∧
      b.delivery p = b.delivery q) ∧
    (b.accepts p = true → b.acceptance p = some (p.inM, p.inC) ∧
      (b.edge p).s1 = some (mixTerms p.inM p.inC))

/-- 20_memory.md R46: an offered result is offered unchanged through any row of edges with `rst = 0` and
`out_ready = 0` (in the cycles after them with `rst = 0`). -/
def Obligations.OfferedResultStaysUntilTaken : Prop :=
  ∀ (b : Block) (r : Word) (ps : List Ports), b.outR false = some r →
    (∀ p ∈ ps, p.rst = false ∧ p.outReady = false) →
    (b.edges ps).outValid false = true ∧ (b.edges ps).outR false = some r

/-- 20_memory.md R53 with 10_state.md R26-R28: every step keeps the agreement of the pipeline and of the
deliveries with the accepted pairs. -/
def Obligations.EveryStepKeepsThePipelineCoherent : Prop :=
  ∀ s t : State, s.Coherent → step s = .next t → t.Coherent

/-- The agreement holds right after reset (10_state.md R33). -/
def Obligations.ResetStateIsCoherent : Prop := State.reset.Coherent

/-- 20_memory.md R53, R54: the k-th deliver carries the Mixer of the k-th accepted pair, and accepts minus
delivers is the occupancy, from 0 to 3. The premise is the invariant that every step keeps. -/
def Obligations.KthDeliverIsTheMixerOfTheKthAccept : Prop :=
  ∀ s : State, s.Coherent →
    (∀ (k : Nat) (r : Word), s.delivered[k]? = some r →
      ∃ m c, s.accepted[k]? = some (m, c) ∧ r = mixer m c) ∧
    s.accepted.length = s.delivered.length + s.block.occ ∧
    s.block.occ ≤ 3

/-- 30_encoding.md R67 (TAKE), 70_reset_and_hazards.md R148: while the host has received exactly what was
delivered since the last reset, the k-th TAKE name is bound to the Mixer of the k-th accepted pair.
That TAKE counts on across a reset is the model's reading (log 12), which the second premise leaves
aside. -/
def Obligations.TakeBindsTheKthResult : Prop :=
  ∀ s : State, s.Coherent → s.host.results = s.delivered →
    ∀ (k : Nat) (name : Text) (r : Word), s.host.bindings[k]? = some (name, r) →
      s.host.names[k]? = some name ∧ ∃ m c, s.accepted[k]? = some (m, c) ∧ r = mixer m c

/-- 40_mix.md R88, 20_memory.md R51: two transactions with the same pair have equal results, whatever lies
between them. -/
def Obligations.SamePairGivesTheSameResult : Prop :=
  ∀ (s : State) (i j : Nat) (p : Pair) (r r' : Word), s.Coherent →
    s.accepted[i]? = some p → s.accepted[j]? = some p →
    s.delivered[i]? = some r → s.delivered[j]? = some r' → r = r'

/-- 20_memory.md R53: from ANY state, through any edges without a reset, no result is dropped, duplicated or
reordered: what is delivered and what is still pending is what was pending and then the Mixer of every
pair accepted, in order. -/
def Obligations.NoResultIsLostOrReordered : Prop :=
  ∀ (s : State) (ps : List Ports), NoReset ps →
    ∃ fresh : List Pair,
      (s.clocks ps).accepted = s.accepted ++ fresh ∧
      (s.clocks ps).delivered ++ (s.clocks ps).block.pendingResults =
        s.delivered ++ s.block.pendingResults ++ fresh.map mixPair

/-- 20_memory.md R55: with `out_ready` held at 1 and no new accepts, the block is empty after 3 edges, with
every result delivered. -/
def Obligations.BlockDrainsWithinThreeEdges : Prop :=
  ∀ (s : State) (p q r : Ports),
    (∀ e ∈ [p, q, r], e.rst = false ∧ e.inValid = false ∧ e.outReady = true) →
    (s.clocks [p, q, r]).block.occ = 0 ∧
    (s.clocks [p, q, r]).delivered = s.delivered ++ s.block.pendingResults ∧
    (s.clocks [p, q, r]).accepted = s.accepted

/-- 70_reset_and_hazards.md R151, R152, 40_mix.md R92, R93: an accepted pair is in `S1` after the accepting
edge, in `S2` after one advance more and in `S3` after two, however many stall edges lie between, and is
delivered at the next edge with `out_ready = 1`. -/
def Obligations.ResultReachesS3AfterTwoAdvances : Prop :=
  ∀ (b : Block) (p : Ports) (ps : List Ports), b.accepts p = true → NoReset ps →
    (b.edge p).s1 = some (mixTerms p.inM p.inC) ∧
    ((b.edge p).advances ps = 1 →
      ((b.edge p).edges ps).s2 = some (mixAccumulate (mixTerms p.inM p.inC))) ∧
    ((b.edge p).advances ps = 2 →
      ((b.edge p).edges ps).s3 = some (mixer p.inM p.inC) ∧
      ((b.edge p).edges ps).outR false = some (mixer p.inM p.inC) ∧
      ∀ q : Ports, q.rst = false → q.outReady = true →
        ((b.edge p).edges ps).delivery q = some (mixer p.inM p.inC))

/-- 70_reset_and_hazards.md R153: with no reset, three edges with `out_ready = 1` deliver everything that is
in flight, whatever the other edges are; and with `out_ready` at 1 the block never holds. -/
def Obligations.ThreeReadyEdgesDeliverWhatIsInFlight : Prop :=
  (∀ (s : State) (ps : List Ports), NoReset ps → 3 ≤ readyEdges ps →
    s.delivered ++ s.block.pendingResults <+: (s.clocks ps).delivered) ∧
  (∀ b : Block, b.inReady false true = true)

/-- 60_exceptions.md R132 (the stuck run), 93_implementation_defined.md U6: while `S3` holds a result, a host
that keeps `out_ready = 0` and does not reset holds the block for ever. First for any row of edges,
whatever the host offers at them: no stage changes, `in_ready = 0` in every cycle, and nothing is
accepted or delivered. Then for the host that offers a MIX and waits for its accept: every step
answers a next state in which it still waits. -/
def Obligations.StuckHostHoldsTheBlockForEver : Prop :=
  (∀ (s : State) (ps : List Ports), s.block.v3 = true →
    (∀ p ∈ ps, p.rst = false ∧ p.outReady = false) →
    (s.clocks ps).block = s.block ∧ (s.clocks ps).accepted = s.accepted ∧
    (s.clocks ps).delivered = s.delivered ∧ (s.clocks ps).host = s.host ∧
    (∀ p ∈ ps, (s.clocks ps).block.inReady p.rst p.outReady = false) ∧
    (s.clocks ps).block.inReady false false = false) ∧
  (∀ (s : State) (n : Nat), s.StuckOnHost →
    ∃ t, s.after n = .next t ∧ t.block = s.block ∧ t.accepted = s.accepted ∧
      t.delivered = s.delivered ∧ t.host = s.host ∧ t.StuckOnHost ∧
      t.block.inReady false t.host.ready = false)

/-- 60_exceptions.md R120, R132: no step faults; a step is refused only for a read of `out_r` while
`out_valid = 0` or for the combinational loop. The statement that takes the cycle is the head of
`(s.load s.host.prog).host.prog`. A step refused for the read has reached a raw cycle that reads `out_r`
with `out_valid = 0`; one refused for the loop has reached a raw cycle whose `out_ready` follows
`in_ready`; and conversely each of the two IS refused so. Every other raw cycle, and every step that
reaches no raw cycle, answers a next state. The model's choices: raw cycles are its own statement
(log 9), and where a raw cycle makes both errors the loop is the one that is named (log 22). -/
def Obligations.StepsAreRefusedOnlyAsTheSpecSays : Prop :=
  (∀ s : State, (∃ t, step s = .next t) ∨ step s = .refused .outRWhileNotValid ∨
    step s = .refused .combinationalLoop) ∧
  (∀ s : State, step s = .refused .outRWhileNotValid →
    ∃ c rest, (s.load s.host.prog).host.prog = .raw c :: rest ∧
      c.readsOut = true ∧ s.block.outValid c.rst = false) ∧
  (∀ s : State, step s = .refused .combinationalLoop →
    ∃ c rest, (s.load s.host.prog).host.prog = .raw c :: rest ∧ c.outReady = .sameAsInReady) ∧
  (∀ (s : State) (c : RawCycle) (rest : Program),
    (s.load s.host.prog).host.prog = .raw c :: rest → c.outReady ≠ .sameAsInReady →
    (c.readsOut = true → s.block.outValid c.rst = true) → ∃ t, step s = .next t) ∧
  (∀ (s : State) (c : RawCycle) (rest : Program),
    (s.load s.host.prog).host.prog = .raw c :: rest → c.outReady = .sameAsInReady →
    step s = .refused .combinationalLoop) ∧
  (∀ (s : State) (c : RawCycle) (rest : Program),
    (s.load s.host.prog).host.prog = .raw c :: rest → c.outReady ≠ .sameAsInReady →
    c.readsOut = true → s.block.outValid c.rst = false → step s = .refused .outRWhileNotValid) ∧
  (∀ s : State, (∀ c rest, (s.load s.host.prog).host.prog ≠ .raw c :: rest) → ∃ t, step s = .next t) ∧
  (∀ s : State, (∀ c, Stmt.raw c ∉ s.host.prog) → ∃ t, step s = .next t)

/-- 60_exceptions.md R132, 70_reset_and_hazards.md R147, R149: a raw cycle whose `out_ready` follows `in_ready`
is refused; one that reads `out_r` is refused exactly while `out_valid = 0`, and otherwise reads the
value in `S3`. The model's choices: the raw cycle is the model's own statement (log 9), and where a
raw cycle both closes the loop and reads `out_r` with `out_valid = 0`, the loop is the refusal that is
named (log 22). -/
def Obligations.ReadingOutRNeedsOutValid : Prop :=
  ∀ (s : State) (c : RawCycle) (rest : Program), s.host.prog = .raw c :: rest →
    (c.outReady = .sameAsInReady → step s = .refused .combinationalLoop) ∧
    (c.outReady ≠ .sameAsInReady → c.readsOut = true → s.block.outValid c.rst = false →
      step s = .refused .outRWhileNotValid) ∧
    (∀ r, c.outReady ≠ .sameAsInReady → c.readsOut = true → c.rst = false →
      s.block.s3 = some r → ∃ t, step s = .next t ∧ t.host.seen = s.host.seen ++ [r])

/-- 30_encoding.md R67: the statements of a host program as cycles of port values. After the edge of its cycle
(`State.clock`) the host goes on with what is left of the program (`State.afterEdge`), which runs READY
and TAKE as soon as they are reached and stops before the next statement that takes a cycle. READY and
TAKE in front of a statement leave its cycle what it is. In a cycle after the last statement
`out_ready` still keeps the READY level. An `IDLE 0`, with which every IDLE ends, and a DRAIN at `occ = 0`,
with which every DRAIN ends, take no cycle (the model's reading of "n cycles" and "until `occ = 0`",
log 11). -/
def Obligations.HostStatementsDriveTheirCycles : Prop :=
  ∀ (s : State) (rest : Program),
    (s.host.prog = .reset :: rest → ∃ d : State, step s = .next d.clock.afterEdge ∧ d.block = s.block ∧
      d.pins.rst = true ∧ d.pins.inValid = false ∧ d.pins.outReady = s.host.ready ∧
      d.host = { s.host with prog := rest }) ∧
    (∀ m c, s.host.prog = Stmt.mixOf m c :: rest →
      ∃ d : State, step s = .next d.clock.afterEdge ∧ d.block = s.block ∧
        d.pins = { rst := false, inValid := true, inM := m, inC := c, outReady := s.host.ready } ∧
        d.host =
          { s.host with
            prog := if s.block.inReady false s.host.ready then rest
              else Stmt.mixOf m c :: rest }) ∧
    (∀ n, s.host.prog = .idle (n + 1) :: rest →
      ∃ d : State, step s = .next d.clock.afterEdge ∧ d.block = s.block ∧
        d.pins.rst = false ∧ d.pins.inValid = false ∧ d.pins.outReady = s.host.ready ∧
        d.host = { s.host with prog := .idle n :: rest }) ∧
    (s.host.prog = .drain :: rest → s.block.occ ≠ 0 →
      ∃ d : State, step s = .next d.clock.afterEdge ∧ d.block = s.block ∧
        d.pins.rst = false ∧ d.pins.inValid = false ∧ d.pins.outReady = true ∧
        d.host = s.host) ∧
    (s.host.prog = [] → ∃ d : State, step s = .next d.clock.afterEdge ∧ d.block = s.block ∧
      d.pins.outReady = s.host.ready ∧ d.host = s.host) ∧
    (s.host.prog = .idle 0 :: rest →
      step s = step { s with host := { s.host with prog := rest } } ∧
      s.afterEdge = { s with host := { s.host with prog := rest } }.afterEdge) ∧
    (s.host.prog = .drain :: rest → s.block.occ = 0 →
      step s = step { s with host := { s.host with prog := rest } } ∧
      s.afterEdge = { s with host := { s.host with prog := rest } }.afterEdge) ∧
    (∀ v, s.host.prog = .ready v :: rest →
      step s = step { s with host := { s.host with ready := v, prog := rest } } ∧
      s.afterEdge = { s with host := { s.host with ready := v, prog := rest } }.afterEdge) ∧
    (∀ name, s.host.prog = .take name :: rest →
      step s =
        step { s with host := { s.host with names := s.host.names ++ [name], prog := rest } } ∧
      s.afterEdge =
        { s with host := { s.host with names := s.host.names ++ [name], prog := rest } }.afterEdge) ∧
    (∀ n beat c, s.host.prog = [] ∨ s.host.prog = .reset :: rest ∨ s.host.prog = .mix beat :: rest ∨
      s.host.prog = .idle (n + 1) :: rest ∨ (s.host.prog = .drain :: rest ∧ s.block.occ ≠ 0) ∨
      s.host.prog = .raw c :: rest → s.afterEdge = s) ∧
    step s.afterEdge = step s

/-- 20_memory.md R53, 41_host_procedures.md R103, R107, 70_reset_and_hazards.md R151: the block as a transducer.
From any state, a reset, then any non-empty row of offers with `out_ready` held at 1, then a drain:
after one edge for the reset, one for each offer and three more, the deliveries are the Mixer of every
pair in order and the block is empty. -/
def Obligations.StreamOfOffersDeliversTheMixerOfEach : Prop :=
  ∀ (s : State) (ps : List Pair) (rest : Program), ps ≠ [] → s.host.ready = true →
    s.host.prog = streamProgram ps ++ rest →
    ∃ t, s.after (ps.length + 4) = .next t ∧ t.block = Block.empty ∧ t.accepted = ps ∧
      t.delivered = ps.map mixPair ∧ t.host.results = s.host.results ++ ps.map mixPair

/-- 70_reset_and_hazards.md R145, R147: whatever a reacting host does in `n` cycles, some fixed row of `n` raw
cycles, none of which closes the combinational loop, brings the machine to the same block, the same
record and the same received results, with the rest of the program still to be run. What a reacting
host may decide from (`Strategy`) is the model's choice (log 23), and so is the raw cycle (log 9). -/
def Obligations.ReactingHostIsAFixedRowOfCycles : Prop :=
  ∀ (h : Strategy) (n : Nat) (s : State) (rest : Program),
    ∃ cs : List RawCycle, cs.length = n ∧ (∀ c ∈ cs, c.loopFree = true) ∧
      ∃ t, State.after n { s with host := { s.host with prog := cs.map Stmt.raw ++ rest } } = .next t ∧
        t.block = (h.run n s).block ∧ t.accepted = (h.run n s).accepted ∧
        t.delivered = (h.run n s).delivered ∧ t.host.results = (h.run n s).host.results ∧
        t.afterEdge.host.prog = ((h.run n s).load rest).host.prog

/-- 40_mix.md R86: the 128-bit view. `B` is the beat, `Q` its exact square; `z = Q[95:32] = {Z2, Z1}`,
`r = Q[79:48] = {Z2[15:0], Z1[31:16]}` and `Z0 = w[31:0]`. -/
def Obligations.MixerIsTheMiddleOfThe128BitSquare : Prop :=
  ∀ m c : Word,
    (beatOf m c).toNat = m.toNat * 2 ^ 32 + c.toNat ∧
    (beatSquare m c).toNat = (m.toNat * 2 ^ 32 + c.toNat) ^ 2 ∧
    mixAccumulate (mixTerms m c) = (beatSquare m c).extractLsb' 32 64 ∧
    mixAccumulate (mixTerms m c) = laneZ2 (beatSquare m c) ++ laneZ1 (beatSquare m c) ∧
    mixer m c = (beatSquare m c).extractLsb' 48 32 ∧
    mixer m c = (laneZ2 (beatSquare m c)).extractLsb' 0 16 ++
      (laneZ1 (beatSquare m c)).extractLsb' 16 16 ∧
    laneZ0 (beatSquare m c) = (termW c).extractLsb' 0 32

/-- 40_mix.md R81, R82, R83: the values of the three terms; `w` and `y` are exact and `x` drops bit 64 of
`2*m*c`. -/
def Obligations.CrossTermsHaveTheirValues : Prop :=
  ∀ m c : Word,
    (termW c).toNat = c.toNat ^ 2 ∧
    (termX m c).toNat = 2 * m.toNat * c.toNat % 2 ^ 64 ∧
    (m.toNat * c.toNat < 2 ^ 63 → (termX m c).toNat = 2 * m.toNat * c.toNat) ∧
    (2 ^ 63 ≤ m.toNat * c.toNat → (termX m c).toNat = 2 * m.toNat * c.toNat - 2 ^ 64) ∧
    (termY m).toNat = m.toNat ^ 2 ∧
    mixTerms m c = { w := termW c, x := termX m c, y := termY m }

/-- 40_mix.md R84, R85: the sum modulo 2^64 and the extraction of `z[47:16]`. -/
def Obligations.AccumulateAndExtractHaveTheirValues : Prop :=
  (∀ t : Terms, (mixAccumulate t).toNat =
    (t.w.toNat / 2 ^ 32 + t.x.toNat + t.y.toNat * 2 ^ 32) % 2 ^ 64) ∧
  (∀ z : DWord, (mixExtract z).toNat = z.toNat / 2 ^ 16 % 2 ^ 32 ∧
    mixExtract z = z.extractLsb' 16 32)

/-- 40_mix.md R91: the closed forms at a zero operand. -/
def Obligations.MixerClosedFormsAtAZeroOperand : Prop :=
  (∀ m : Word, (mixer m 0).toNat = m.toNat ^ 2 % 2 ^ 16 * 2 ^ 16 ∧
    (mixer m 0 = 0 ↔ 0x100 ∣ m.toNat)) ∧
  (∀ c : Word, (mixer 0 c).toNat = c.toNat ^ 2 / 2 ^ 48 ∧ (mixer 0 c).toNat < 2 ^ 16 ∧
    (mixer 0 c = 0 ↔ c.toNat < 2 ^ 24)) ∧
  mixer 0 0 = 0

/-- 40_mix.md R90 (its first sentence): the result depends on `z mod 2^48` alone, hence on
`(w >> 32) mod 2^48`, `x mod 2^48` and `y mod 2^16` alone. -/
def Obligations.ResultDependsOnTheLow48BitsOfZ : Prop :=
  (∀ z z' : DWord, z.toNat % 2 ^ 48 = z'.toNat % 2 ^ 48 → mixExtract z = mixExtract z') ∧
  (∀ t t' : Terms, (t.w >>> 32).toNat % 2 ^ 48 = (t'.w >>> 32).toNat % 2 ^ 48 →
    t.x.toNat % 2 ^ 48 = t'.x.toNat % 2 ^ 48 → t.y.toNat % 2 ^ 16 = t'.y.toNat % 2 ^ 16 →
    mixExtract (mixAccumulate t) = mixExtract (mixAccumulate t'))

/-- 41_host_procedures.md R101: the result of SEARCH is every message that the Mixer takes to the target,
ascending, each once; every candidate is evaluated exactly once, 2^32 in all. -/
def Obligations.SearchFindsEveryPreimageInOrder : Prop :=
  ∀ chain chainPrime : Word,
    (∀ i, i ∈ search chain chainPrime ↔ mixer i chain = chainPrime) ∧
    (search chain chainPrime).Pairwise (fun i j => i.toNat < j.toNat) ∧
    (∀ i, (searchPairs searchDomain chain).count (i, chain) = 1) ∧
    (searchPairs searchDomain chain).length = 2 ^ 32

/-- 41_host_procedures.md R106: the message whose chain-prime is searched for is among the matches. -/
def Obligations.SearchFindsTheMessageItStartedFrom : Prop :=
  ∀ msg chain : Word, msg ∈ search chain (mixer msg chain)

/-- 41_host_procedures.md R104: a search split over a partition of the domain emits every match, without
duplicates or omissions, whatever the order of the parts. -/
def Obligations.PartitionedSearchEmitsTheSameMatches : Prop :=
  ∀ (parts : List (List Word)) (chain chainPrime : Word), IsPartition parts →
    (searchParts parts chain chainPrime).flatten.Perm (search chain chainPrime) ∧
    (searchParts parts chain chainPrime).flatten.Nodup ∧
    (∀ i, i ∈ (searchParts parts chain chainPrime).flatten ↔ mixer i chain = chainPrime)

/-- 41_host_procedures.md R103, R107: the host programs of SEARCH and AVALANCHE, run on the block from any state
with READY 1, deliver the results from which the host makes the result of SEARCH and the rows of
AVALANCHE: after 2^32 + 4 steps (`Config.searchDomain + 4`) and after 69 steps, with the block empty.
The first two clauses say the same of the Mixer's values alone. -/
def Obligations.BlockResultsGiveTheHostProcedures : Prop :=
  (∀ chain chainPrime : Word,
    emitMatches chainPrime 0 ((searchPairs searchDomain chain).map mixPair) =
      search chain chainPrime) ∧
  (∀ m c : Word, avalancheRowsOf m c ((avalanchePairs m c).map mixPair) = avalanche m c) ∧
  (∀ (s : State) (chain chainPrime : Word) (rest : Program), s.host.ready = true →
    s.host.prog = searchProgram chain ++ rest →
    ∃ t, s.after (Config.searchDomain + 4) = .next t ∧ t.block = Block.empty ∧
      emitMatches chainPrime 0 t.delivered = search chain chainPrime ∧
      t.host.results = s.host.results ++ t.delivered) ∧
  (∀ (s : State) (m c : Word) (rest : Program), s.host.ready = true →
    s.host.prog = avalancheProgram m c ++ rest →
    ∃ t, s.after 69 = .next t ∧ t.block = Block.empty ∧
      avalancheRowsOf m c t.delivered = avalanche m c ∧
      t.host.results = s.host.results ++ t.delivered)

/-- 41_host_procedures.md R107, R108: the 65 rows of AVALANCHE in their order, with their flags. Message bit
`b` is row `32 - b`, chain bit `b` row `64 - b`. On the block it is one MIX per row, in that order. -/
def Obligations.AvalancheHasItsRowsInOrder : Prop :=
  ∀ m c : Word,
    (avalanche m c).length = 65 ∧
    (avalanche m c)[0]? =
      some { message := m, chain := c, result := mixer m c, flag := false } ∧
    (∀ b : Nat, b < 32 →
      (avalanche m c)[32 - b]? = some
        { message := m ^^^ (1#32 <<< b), chain := c, result := mixer (m ^^^ (1#32 <<< b)) c,
          flag := mixer (m ^^^ (1#32 <<< b)) c == mixer m c } ∧
      (avalanche m c)[64 - b]? = some
        { message := m, chain := c ^^^ (1#32 <<< b), result := mixer m (c ^^^ (1#32 <<< b)),
          flag := mixer m (c ^^^ (1#32 <<< b)) == mixer m c }) ∧
    avalancheProgram m c =
      .reset :: ((avalanche m c).map (fun row => Stmt.mixOf row.message row.chain) ++ [.drain])

/-- 41_host_procedures.md R109: exactly 8 lowercase hexadecimal digits, most significant first, zero-padded;
the k-th digit from the left has the weight `16^(7-k)`. -/
def Obligations.ValuesPrintAsEightLowercaseHexDigits : Prop :=
  ∀ v : Word,
    (hex8 v).length = 8 ∧
    (∀ k, k < 8 → ∃ ch, (hex8 v)[k]? = some ch ∧
      ['0', '1', '2', '3', '4', '5', '6', '7', '8', '9', 'a', 'b', 'c', 'd', 'e', 'f'][
        v.toNat / 16 ^ (7 - k) % 16]? = some ch) ∧
    parseHex (hex8 v) = some v

/-- 41_host_procedures.md R113: an argument is parsable exactly when it is an optional `0x` or `0X`, then one
or more hexadecimal digits of either case and nothing else, of a value below 2^32. -/
def Obligations.ParsableArgumentsAreExactlyTheHexTexts : Prop :=
  (∀ (ch : Char) (d : Nat), hexDigitValue ch = some d ↔
    ['0', '1', '2', '3', '4', '5', '6', '7', '8', '9', 'a', 'b', 'c', 'd', 'e', 'f'][d]? = some ch ∨
    ['0', '1', '2', '3', '4', '5', '6', '7', '8', '9', 'A', 'B', 'C', 'D', 'E', 'F'][d]? = some ch) ∧
  (∀ (t : Text) (v : Word), parseHex t = some v ↔
    ∃ (digits : Text) (ds : List Nat),
      (t = digits ∨ t = '0' :: 'x' :: digits ∨ t = '0' :: 'X' :: digits) ∧
      digits ≠ [] ∧ digits.map hexDigitValue = ds.map some ∧
      v.toNat = ds.foldl (fun acc d => acc * 16 + d) 0)

/-- 41_host_procedures.md R112, 60_exceptions.md R122: a wrong argument count or an unparsable argument, and
nothing else, is a UsageError: no standard output, a usage message, a non-zero status, no transaction. -/
def Obligations.UsageErrorIsTheOnlyCommandError : Prop :=
  ∀ (cmd : Command) (args : List Text),
    ((args.length ≠ 2 ∨ ∃ a ∈ args, parseHex a = none) →
      (runCommand cmd args).stdout = [] ∧ (runCommand cmd args).stderr = [Config.usageText cmd args] ∧
      (runCommand cmd args).status ≠ 0 ∧ (runCommand cmd args).program = []) ∧
    (¬ (args.length ≠ 2 ∨ ∃ a ∈ args, parseHex a = none) →
      (runCommand cmd args).stderr = [] ∧ (runCommand cmd args).status = 0)

/-- 41_host_procedures.md R110, R111: what the two commands print on parsable arguments (the parts the spec
gives; labels, spacing and progress lines are not observed, log 15). -/
def Obligations.CommandsPrintTheirResults : Prop :=
  ∀ (a b : Text) (x y : Word), parseHex a = some x → parseHex b = some y →
    (runCommand .search [a, b]).stdout =
      [.value (hex8 x), .value (hex8 y), .value (hex8 (mixer x y))] ++
        (search y (mixer x y)).map (fun i => OutLine.exactly
          (['M', 'A', 'T', 'C', 'H', '!', ' ', 'm', 'e', 's', 's', 'a', 'g', 'e', ' ', '=', ' '] ++
            hex8 i)) ∧
    (runCommand .search [a, b]).status = 0 ∧
    (runCommand .avalanche [a, b]).stdout =
      .header [['M'], ['C'], ['C', '\'']] :: (avalanche x y).map (fun row => OutLine.row
        [hex8 row.message, hex8 row.chain, hex8 row.result]
        (if row.flag then ['*', '*', '*'] else [])) ∧
    (runCommand .avalanche [a, b]).status = 0

/-- 60_exceptions.md R127, 20_memory.md R58: blocks side by side share no state. A step of one leaves the
others as they are, and steps of two of them can be exchanged. That blocks step one at a time and in
any order, on which the exchange rests, is the model's choice (log 18). -/
def Obligations.BlocksSideBySideAreIndependent : Prop :=
  ∀ (p q r : Platform) (i j : Nat), i ≠ j →
    Platform.stepAt p i = .next q → Platform.stepAt q j = .next r →
    (∀ k, k ≠ i → q[k]? = p[k]?) ∧
    ∃ u, Platform.stepAt p j = .next u ∧ Platform.stepAt u i = .next r

/-- How bits of the opcode table make a beat: the model's choice (log 13), over the fixed length of
30_encoding.md R65. The decoder of rows reads rows of 64 bits and no others. `decodeTableWord` and
`withFetchWord` lay up to 64 bits of the table out as one 64-bit beat, the other bits 0; more than 64
bits decode to nothing and place nothing. -/
def Obligations.RowsOfAnotherLengthAreNoBeats : Prop :=
  (∀ nbits w : Nat, nbits ≠ 64 → decodeBits nbits w = .error (.notABeatsLength nbits)) ∧
  (∀ nbits w : Nat, nbits ≤ 64 → decodeTableWord nbits w = decodeTableWord 64 (w % 2 ^ nbits)) ∧
  (∀ (s : State) (nbits w : Nat), 64 < nbits →
    decodeTableWord nbits w = none ∧ s.withFetchWord nbits w = s)

/-- 30_encoding.md R67 (TAKE "takes no cycle of its own"), 20_memory.md R53: a host that has received and
named nothing runs a reset, a non-empty row of offers with READY 1, a drain, and as many TAKEs as it
made offers (program P1 of 95_test_vectors.md is the shortest). After the last edge of the drain, with
no further step, every name is bound to the Mixer of its pair and the program has ended. -/
def Obligations.TakesAfterTheDrainBindAtItsLastEdge : Prop :=
  ∀ (s : State) (ps : List Pair) (names : List Text), ps ≠ [] → names.length = ps.length →
    s.host.ready = true → s.host.names = [] → s.host.results = [] →
    s.host.prog = streamProgram ps ++ names.map Stmt.take →
    ∃ t, s.after (ps.length + 4) = .next t ∧ t.block = Block.empty ∧ t.host.prog = [] ∧
      t.host.bindings = names.zip (ps.map mixPair)

/-- 30_encoding.md R67, 20_memory.md R55: `IDLE n` drives exactly `n` cycles with `rst = 0`, `in_valid = 0` and
the READY level on `out_ready`; a DRAIN drives cycles with `rst = 0`, `in_valid = 0`, `out_ready = 1`, each of
them at `occ ≠ 0`, at most three, and ends with the block empty. Then the host goes on with the rest of
the program, in the state that these edges leave. (That a DRAIN of an empty block drives no cycle is
the model's reading of "until `occ = 0`", log 11.) -/
def Obligations.IdleAndDrainTakeExactlyTheirCycles : Prop :=
  ∀ (s : State) (rest : Program),
    (∀ n, s.host.prog = .idle n :: rest → ∃ (ps : List Ports) (t : State), ps.length = n ∧
      (∀ p ∈ ps, p.rst = false ∧ p.inValid = false ∧ p.outReady = s.host.ready) ∧
      s.after n = .next t ∧ t.afterEdge = ((s.clocks ps).withProg rest).afterEdge) ∧
    (s.host.prog = .drain :: rest → ∃ (ps : List Ports) (t : State), ps.length ≤ 3 ∧
      (∀ p ∈ ps, p.rst = false ∧ p.inValid = false ∧ p.outReady = true) ∧
      (∀ k, k < ps.length → (s.block.edges (ps.take k)).occ ≠ 0) ∧
      s.after ps.length = .next t ∧ t.block.occ = 0 ∧
      t.afterEdge = ((s.clocks ps).withProg rest).afterEdge)
end

