-- ==== Sys2Proof/Laws/PerInstr.lean ====
section
/-! SUPPORT. The statements made per instruction. -/

namespace Sys2Proof.Laws

theorem beatOf_toNat (m c : Word) : (beatOf m c).toNat = m.toNat * 2 ^ 32 + c.toNat := by
  have h : (beatOf m c).toNat = m.toNat <<< 32 ||| c.toNat := BitVec.toNat_append m c
  rw [h, ← Nat.shiftLeft_add_eq_or_of_lt c.isLt, Nat.shiftLeft_eq]

/-- The value of an instruction's beat: `B = m * 2^32 + c` (30_encoding.md R60). -/
def BeatValue.Statement : Instr → Prop
  | .mix m c => (encode (.mix m c)).toNat = m.toNat * 2 ^ 32 + c.toNat

theorem BeatValue.mix (m c : Word) : BeatValue.Statement (.mix m c) := beatOf_toNat m c

end Sys2Proof.Laws
end

