-- ==== Sys2Proof/Laws/State.lean ====
section
/-! SUPPORT. One lemma per field per update of the state, so that no later proof unfolds a record update. -/

namespace Sys2Proof.Laws

open Sys2Proof.Machine

variable (s : State) (p : Ports) (rest : Program) (m c r : Word) (b : Bool) (name : Text)

@[simp] theorem drivePins_pins : (s.drivePins p rest).pins = p := rfl
@[simp] theorem drivePins_block : (s.drivePins p rest).block = s.block := rfl
@[simp] theorem drivePins_accepted : (s.drivePins p rest).accepted = s.accepted := rfl
@[simp] theorem drivePins_delivered : (s.drivePins p rest).delivered = s.delivered := rfl
@[simp] theorem drivePins_cycle : (s.drivePins p rest).cycle = s.cycle := rfl
@[simp] theorem drivePins_host : (s.drivePins p rest).host = { s.host with prog := rest } := rfl

@[simp] theorem withProg_pins : (s.withProg rest).pins = s.pins := rfl
@[simp] theorem withProg_block : (s.withProg rest).block = s.block := rfl
@[simp] theorem withProg_accepted : (s.withProg rest).accepted = s.accepted := rfl
@[simp] theorem withProg_delivered : (s.withProg rest).delivered = s.delivered := rfl
@[simp] theorem withProg_cycle : (s.withProg rest).cycle = s.cycle := rfl
@[simp] theorem withProg_host : (s.withProg rest).host = { s.host with prog := rest } := rfl
@[simp] theorem withProg_withProg (old : Program) :
    (s.withProg old).withProg rest = s.withProg rest := rfl
@[simp] theorem withProg_self : s.withProg s.host.prog = s := rfl

@[simp] theorem setReady_pins : (s.setReady b).pins = s.pins := rfl
@[simp] theorem setReady_block : (s.setReady b).block = s.block := rfl
@[simp] theorem setReady_accepted : (s.setReady b).accepted = s.accepted := rfl
@[simp] theorem setReady_delivered : (s.setReady b).delivered = s.delivered := rfl
@[simp] theorem setReady_cycle : (s.setReady b).cycle = s.cycle := rfl
@[simp] theorem setReady_host : (s.setReady b).host = { s.host with ready := b } := rfl

@[simp] theorem takeName_pins : (s.takeName name).pins = s.pins := rfl
@[simp] theorem takeName_block : (s.takeName name).block = s.block := rfl
@[simp] theorem takeName_accepted : (s.takeName name).accepted = s.accepted := rfl
@[simp] theorem takeName_delivered : (s.takeName name).delivered = s.delivered := rfl
@[simp] theorem takeName_cycle : (s.takeName name).cycle = s.cycle := rfl
@[simp] theorem takeName_host :
    (s.takeName name).host = { s.host with names := s.host.names ++ [name] } := rfl

@[simp] theorem see_pins : (s.see r).pins = s.pins := rfl
@[simp] theorem see_block : (s.see r).block = s.block := rfl
@[simp] theorem see_accepted : (s.see r).accepted = s.accepted := rfl
@[simp] theorem see_delivered : (s.see r).delivered = s.delivered := rfl
@[simp] theorem see_cycle : (s.see r).cycle = s.cycle := rfl
@[simp] theorem see_host : (s.see r).host = { s.host with seen := s.host.seen ++ [r] } := rfl

@[simp] theorem offer_pins :
    (s.offer m c).pins = { s.pins with inValid := true, inM := m, inC := c } := rfl
@[simp] theorem offer_block : (s.offer m c).block = s.block := rfl
@[simp] theorem offer_accepted : (s.offer m c).accepted = s.accepted := rfl
@[simp] theorem offer_delivered : (s.offer m c).delivered = s.delivered := rfl
@[simp] theorem offer_host : (s.offer m c).host = s.host := rfl
@[simp] theorem offer_cycle : (s.offer m c).cycle = s.cycle := rfl

@[simp] theorem clock_pins : s.clock.pins = s.pins := rfl
@[simp] theorem clock_block : s.clock.block = s.block.edge s.pins := rfl
@[simp] theorem clock_accepted :
    s.clock.accepted =
      if s.pins.rst then [] else s.accepted ++ (s.block.acceptance s.pins).toList := rfl
@[simp] theorem clock_delivered :
    s.clock.delivered =
      if s.pins.rst then [] else s.delivered ++ (s.block.delivery s.pins).toList := rfl
@[simp] theorem clock_host : s.clock.host = s.host.receive (s.block.delivery s.pins) := rfl
@[simp] theorem clock_cycle : s.clock.cycle = s.cycle + 1 := rfl

variable (h : HostSide) (o : Option Word)

@[simp] theorem receive_prog : (h.receive o).prog = h.prog := rfl
@[simp] theorem receive_ready : (h.receive o).ready = h.ready := rfl
@[simp] theorem receive_names : (h.receive o).names = h.names := rfl
@[simp] theorem receive_results : (h.receive o).results = h.results ++ o.toList := rfl
@[simp] theorem receive_seen : (h.receive o).seen = h.seen := rfl

/-- Receiving nothing changes nothing. -/
@[simp] theorem receive_none : h.receive none = h := by
  cases h; simp [HostSide.receive]

end Sys2Proof.Laws
end

