-- ==== Sys2Proof/Laws/Ops.lean ====
section
/-! SUPPORT. For each shared operation over the block, once, everything it can do. -/

namespace Sys2Proof.Laws

open Sys2Proof.Machine

theorem beat_fields (m c : Word) : messageField (beatOf m c) = m ∧ chainField (beatOf m c) = c := by
  have hm := m.isLt
  have hc := c.isLt
  constructor <;> apply BitVec.eq_of_toNat_eq <;>
    simp only [messageField, chainField, BitVec.extractLsb'_toNat, beatOf_toNat,
      Nat.shiftRight_eq_div_pow] <;> omega

@[simp] theorem messageField_beatOf (m c : Word) : messageField (beatOf m c) = m := (beat_fields m c).1
@[simp] theorem chainField_beatOf (m c : Word) : chainField (beatOf m c) = c := (beat_fields m c).2

theorem mixer_eq (m c : Word) : mixExtract (mixAccumulate (mixTerms m c)) = mixer m c := rfl

theorem mixPair_eq (p : Pair) : mixPair p = mixer p.1 p.2 := rfl

variable (b : Block) (p : Ports)

theorem en_eq_true_iff (o : Bool) : b.en o = true ↔ b.s3 = none ∨ o = true := by
  cases h : b.s3 <;> simp [Block.en, Block.v3, h]

theorem en_eq_false_iff (o : Bool) : b.en o = false ↔ (∃ r, b.s3 = some r) ∧ o = false := by
  cases h : b.s3 <;> simp [Block.en, Block.v3, h]

theorem edge_of_rst (h : p.rst = true) : b.edge p = Block.empty := by simp [Block.edge, h]

theorem edge_of_en (hr : p.rst = false) (he : b.en p.outReady = true) : b.edge p = b.advance p := by
  simp [Block.edge, hr, he]

theorem edge_of_hold (hr : p.rst = false) (he : b.en p.outReady = false) : b.edge p = b := by
  simp [Block.edge, hr, he]

theorem acceptance_of_rst (h : p.rst = true) : b.acceptance p = none := by
  simp [Block.acceptance, Block.accepts, Block.inReady, h]

theorem delivery_of_rst (h : p.rst = true) : b.delivery p = none := by
  simp [Block.delivery, Block.delivers, Block.outValid, h]

theorem acceptance_of_en (hr : p.rst = false) (he : b.en p.outReady = true) :
    b.acceptance p = if p.inValid then some (p.inM, p.inC) else none := by
  simp [Block.acceptance, Block.accepts, Block.inReady, hr, he]

theorem delivery_of_en (hr : p.rst = false) (he : b.en p.outReady = true) : b.delivery p = b.s3 := by
  cases h : b.s3 <;>
    simp_all [Block.delivery, Block.delivers, Block.outValid, Block.v3, Block.en]

theorem acceptance_of_hold (he : b.en p.outReady = false) : b.acceptance p = none := by
  simp [Block.acceptance, Block.accepts, Block.inReady, he]

theorem delivery_of_hold (he : b.en p.outReady = false) : b.delivery p = none := by
  have h := (en_eq_false_iff b p.outReady).1 he
  simp [Block.delivery, Block.delivers, h.2]

/-- Everything an edge can do: reset, advance with what it accepts and delivers, or hold. -/
theorem edge_cases :
    (p.rst = true ∧ b.edge p = Block.empty ∧ b.acceptance p = none ∧ b.delivery p = none) ∨
    (p.rst = false ∧ b.en p.outReady = true ∧ b.edge p = b.advance p ∧
      b.acceptance p = (if p.inValid then some (p.inM, p.inC) else none) ∧ b.delivery p = b.s3) ∨
    (p.rst = false ∧ b.en p.outReady = false ∧ b.edge p = b ∧
      b.acceptance p = none ∧ b.delivery p = none) := by
  cases hr : p.rst
  · cases he : b.en p.outReady
    · exact .inr (.inr ⟨rfl, rfl, edge_of_hold b p hr he, acceptance_of_hold b p he,
        delivery_of_hold b p he⟩)
    · exact .inr (.inl ⟨rfl, rfl, edge_of_en b p hr he, acceptance_of_en b p hr he,
        delivery_of_en b p hr he⟩)
  · exact .inl ⟨rfl, edge_of_rst b p hr, acceptance_of_rst b p hr, delivery_of_rst b p hr⟩

/-- Everything a clocked edge with its record can do. -/
theorem clock_cases (s : State) :
    (s.pins.rst = true ∧
      s.clock = { s with block := Block.empty, accepted := [], delivered := [],
                         cycle := s.cycle + 1 }) ∨
    (s.pins.rst = false ∧ s.block.en s.pins.outReady = true ∧
      s.clock = { s with
        block := s.block.advance s.pins
        accepted := s.accepted ++ (if s.pins.inValid then [(s.pins.inM, s.pins.inC)] else [])
        delivered := s.delivered ++ s.block.s3.toList
        host := s.host.receive s.block.s3
        cycle := s.cycle + 1 }) ∨
    (s.pins.rst = false ∧ s.block.en s.pins.outReady = false ∧
      s.clock = { s with cycle := s.cycle + 1 }) := by
  rcases edge_cases s.block s.pins with ⟨hr, he, ha, hd⟩ | ⟨hr, hen, he, ha, hd⟩ | ⟨hr, hen, he, ha, hd⟩
  · exact .inl ⟨hr, by simp [State.clock, hr, he, hd]⟩
  · refine .inr (.inl ⟨hr, hen, ?_⟩)
    cases hv : s.pins.inValid <;> simp [State.clock, hr, he, ha, hd, hv]
  · exact .inr (.inr ⟨hr, hen, by simp [State.clock, hr, he, ha, hd]⟩)

theorem occ_le_three : b.occ ≤ 3 := by
  cases h1 : b.v1 <;> cases h2 : b.v2 <;> cases h3 : b.v3 <;> simp [Block.occ, h1, h2, h3]

theorem quiescent_iff : b.quiescent = true ↔ b = Block.empty := by
  obtain ⟨s1, s2, s3⟩ := b
  cases s1 <;> cases s2 <;> cases s3 <;>
    simp [Block.quiescent, Block.occ, Block.v1, Block.v2, Block.v3, Block.empty]

end Sys2Proof.Laws
end

