-- ==== Sys2Proof/Laws/Procedures.lean ====
section
/-! SUPPORT. The search domain: every message once, ascending. -/

namespace Sys2Proof.Laws

open Sys2Proof.Machine

theorem config_searchDomain_eq : Config.searchDomain = 2 ^ 32 := by
  rw [Config.searchDomain]

/-- Every message is a candidate. -/
theorem mem_searchDomain (i : Word) : i ∈ searchDomain := by
  rw [searchDomain, List.mem_map]
  refine ⟨i.toNat, ?_, by simp⟩
  rw [List.mem_range, config_searchDomain_eq]
  exact i.isLt

/-- The candidates ascend. -/
theorem searchDomain_ascending : searchDomain.Pairwise fun i j => i.toNat < j.toNat := by
  rw [searchDomain, List.pairwise_map]
  refine List.Pairwise.imp_of_mem ?_ List.pairwise_lt_range
  intro a b ha hb h
  rw [List.mem_range, config_searchDomain_eq] at ha hb
  rwa [BitVec.toNat_ofNat, BitVec.toNat_ofNat, Nat.mod_eq_of_lt ha, Nat.mod_eq_of_lt hb]

/-- No candidate stands twice. -/
theorem searchDomain_nodup : searchDomain.Nodup :=
  searchDomain_ascending.imp fun h e => by subst e; omega

theorem searchDomain_length : searchDomain.length = 2 ^ 32 := by
  rw [searchDomain, List.length_map, List.length_range, config_searchDomain_eq]

end Sys2Proof.Laws
end

