-- ==== Sys2Proof/Laws/Step.lean ====
section
/-! SUPPORT. What the host's side of a cycle and a step can do. -/

namespace Sys2Proof.Laws

open Sys2Proof.Machine

/-- A raw cycle that is driven leaves the block and the record alone. -/
theorem driveRaw_frame {s t : State} {c : RawCycle} {rest : Program}
    (h : s.driveRaw c rest = .ok t) :
    t.block = s.block ∧ t.accepted = s.accepted ∧ t.delivered = s.delivered ∧ t.cycle = s.cycle ∧
      t.host.results = s.host.results := by
  unfold State.driveRaw at h
  split at h
  · cases h
  · split at h
    · cases h
    · rename_i u hu
      cases h
      split at hu
      · unfold State.readOutR at hu
        split at hu
        · cases hu; exact ⟨rfl, rfl, rfl, rfl, rfl⟩
        · cases hu
      · cases hu; exact ⟨rfl, rfl, rfl, rfl, rfl⟩

/-- A statement that takes no cycle changes the READY level and the names alone. -/
theorem turn_instant {s t : State} {rest : Program} {st : Stmt} (h : s.turn rest st = .instant t) :
    ∃ ready names, t = { s with host := { s.host with ready := ready, names := names } } := by
  cases st with
  | idle n => cases n <;> cases h; exact ⟨_, _, rfl⟩
  | ready b => cases h; exact ⟨_, _, rfl⟩
  | take name => cases h; exact ⟨_, _, rfl⟩
  | drain =>
    simp only [State.turn] at h
    split at h <;> cases h
    exact ⟨_, _, rfl⟩
  | reset => cases h
  | mix beat => cases h
  | raw c => cases h

/-- A statement that takes the cycle leaves the block, the record and the received results alone. -/
theorem turn_cycle {s t : State} {rest : Program} {st : Stmt} (h : s.turn rest st = .cycle (.ok t)) :
    t.block = s.block ∧ t.accepted = s.accepted ∧ t.delivered = s.delivered ∧ t.cycle = s.cycle ∧
      t.host.results = s.host.results := by
  cases st with
  | idle n => cases n <;> cases h; exact ⟨rfl, rfl, rfl, rfl, rfl⟩
  | drain =>
    simp only [State.turn] at h
    split at h <;> cases h
    exact ⟨rfl, rfl, rfl, rfl, rfl⟩
  | reset => cases h; exact ⟨rfl, rfl, rfl, rfl, rfl⟩
  | mix beat => cases h; exact ⟨rfl, rfl, rfl, rfl, rfl⟩
  | raw c => exact driveRaw_frame (Turn.cycle.inj h)
  | ready b => cases h
  | take name => cases h

/-- What a statement does depends on the block, the READY level and what follows it, and not on the
program kept in the state. -/
theorem turn_withProg (s : State) (old rest : Program) (st : Stmt) :
    (s.withProg old).turn rest st =
      match s.turn rest st with
      | .instant t => .instant (t.withProg old)
      | .cycle driven => .cycle driven := by
  cases st with
  | idle n => cases n <;> rfl
  | drain =>
    cases h : s.block.quiescent with
    | true => simp [State.turn, h]
    | false => simp [State.turn, h]; rfl
  | raw c =>
    simp only [State.turn, State.driveRaw, State.readOutR, withProg_block]
    cases RawCycle.outReadyLevel c s.block <;> simp
    cases c.readsOut <;> cases s.block.outR c.rst <;> rfl
  | reset => rfl
  | mix beat => rfl
  | ready b => rfl
  | take name => rfl

/-- Driving a program does not look at the program kept in the state. -/
theorem drive_withProg (prog old : Program) (s : State) :
    State.drive prog (s.withProg old) = State.drive prog s := by
  induction prog generalizing s with
  | nil => rfl
  | cons st rest ih =>
    simp only [State.drive, turn_withProg]
    cases s.turn rest st with
    | instant t => exact ih t
    | cycle driven => rfl

/-- Going on with a program does not look at the program kept in the state. -/
theorem proceed_withProg (prog old : Program) (s : State) :
    State.proceed prog (s.withProg old) = State.proceed prog s := by
  induction prog generalizing s with
  | nil => rfl
  | cons st rest ih =>
    simp only [State.proceed, turn_withProg]
    cases s.turn rest st with
    | instant t => exact ih t
    | cycle driven => rfl

/-- Everything that going on with a program can do: it changes the rest of the program, the READY level and
the names alone. -/
theorem proceed_eq (prog : Program) (s : State) :
    ∃ rest ready names, State.proceed prog s =
      { s with host := { s.host with prog := rest, ready := ready, names := names } } := by
  induction prog generalizing s with
  | nil => exact ⟨_, _, _, rfl⟩
  | cons st rest ih =>
    simp only [State.proceed]
    cases h : s.turn rest st with
    | instant t =>
      obtain ⟨ready, names, rfl⟩ := turn_instant h
      exact ih _
    | cycle driven => exact ⟨_, _, _, rfl⟩

/-- After going on with a program, either it has ended or the next statement takes a cycle. -/
theorem proceed_head (prog : Program) (s : State) :
    (State.proceed prog s).host.prog = [] ∨
    ∃ st rest driven, (State.proceed prog s).host.prog = st :: rest ∧
      (State.proceed prog s).turn rest st = .cycle driven := by
  induction prog generalizing s with
  | nil => exact .inl rfl
  | cons st rest ih =>
    simp only [State.proceed]
    cases h : s.turn rest st with
    | instant t => exact ih t
    | cycle driven => exact .inr ⟨st, rest, driven, rfl, by simp only [turn_withProg, h]⟩

/-- Going on with a program takes nothing away from its cycles: the next cycle is the same. -/
theorem drive_proceed (prog : Program) (s : State) :
    State.drive (State.proceed prog s).host.prog (State.proceed prog s) = State.drive prog s := by
  induction prog generalizing s with
  | nil => rfl
  | cons st rest ih =>
    simp only [State.proceed]
    cases h : s.turn rest st with
    | instant t => simpa only [State.drive, h] using ih t
    | cycle driven => simp only [State.drive, withProg_host, turn_withProg, h]

/-- Going on twice is going on once. -/
theorem proceed_idem (prog : Program) (s : State) :
    State.proceed (State.proceed prog s).host.prog (State.proceed prog s) = State.proceed prog s := by
  induction prog generalizing s with
  | nil => rfl
  | cons st rest ih =>
    simp only [State.proceed]
    cases h : s.turn rest st with
    | instant t => exact ih t
    | cycle driven => simp only [withProg_host, State.proceed, turn_withProg, h, withProg_withProg]

/-- Driving the ports of a cycle leaves the block, the record and the received results alone. -/
theorem drive_frame {prog : Program} {s t : State} (h : State.drive prog s = .ok t) :
    t.block = s.block ∧ t.accepted = s.accepted ∧ t.delivered = s.delivered ∧ t.cycle = s.cycle ∧
      t.host.results = s.host.results := by
  induction prog generalizing s with
  | nil => cases h; exact ⟨rfl, rfl, rfl, rfl, rfl⟩
  | cons st rest ih =>
    simp only [State.drive] at h
    cases ht : s.turn rest st with
    | instant u =>
      rw [ht] at h
      obtain ⟨ready, names, rfl⟩ := turn_instant ht
      exact ih (s := { s with host := { s.host with ready := ready, names := names } }) h
    | cycle driven =>
      rw [ht] at h
      exact turn_cycle (ht.trans (congrArg Turn.cycle h))

/-- An offer of what the ports already offer changes nothing. -/
theorem offer_self (s : State) (h : s.pins.inValid = true) : s.offer s.pins.inM s.pins.inC = s := by
  obtain ⟨⟨rst, inValid, inM, inC, outReady⟩, block, accepted, delivered, host, cycle⟩ := s
  cases h
  rfl

/-- A step is the host's driving of the ports, one edge, and the host's going on; only the driving can be
refused. -/
theorem step_eq_clock (s : State) :
    step s = match State.drive s.host.prog s with
      | .error e => .refused e
      | .ok t => .next t.clock.afterEdge := by
  unfold step
  cases hd : State.drive s.host.prog s with
  | error e => rfl
  | ok t =>
    cases hv : t.pins.inValid with
    | false => simp [hv, hostProceeds]
    | true => simp [hv, exec, execMix, decodeBeat, Ports.beat, offer_self t hv, hostProceeds]

/-- The inversion of a step that answers a next state. -/
theorem step_next_cases {s t : State} (h : step s = .next t) :
    ∃ d, State.drive s.host.prog s = .ok d ∧ t = d.clock.afterEdge := by
  rw [step_eq_clock] at h
  cases hd : State.drive s.host.prog s with
  | error e => rw [hd] at h; cases h
  | ok d => rw [hd] at h; cases h; exact ⟨d, rfl, rfl⟩

/-- The host's going on changes nothing but its program, its READY level and its names. -/
theorem afterEdge_eq (s : State) :
    ∃ rest ready names, s.afterEdge =
      { s with host := { s.host with prog := rest, ready := ready, names := names } } :=
  proceed_eq s.host.prog s

/-- Going on after an edge stops before a statement that takes a cycle. -/
theorem afterEdge_of_cycle {s : State} {st : Stmt} {rest : Program} {driven : Except Refusal State}
    (h : s.host.prog = st :: rest) (ht : s.turn rest st = .cycle driven) : s.afterEdge = s := by
  simp only [State.afterEdge, State.load, h, State.proceed, ht]
  rw [← h, withProg_self]

/-- Going on twice after an edge is going on once. -/
theorem afterEdge_afterEdge (s : State) : s.afterEdge.afterEdge = s.afterEdge :=
  proceed_idem s.host.prog s

/-- Running at once what takes no cycle leaves every step what it was. -/
theorem step_load (s : State) : step (s.load s.host.prog) = step s := by
  simp only [step, State.load, drive_proceed]

end Sys2Proof.Laws
end

