-- ==== Sys2Proof/Laws/Safety.lean ====
section
/-! SUPPORT. What an edge does to the results still to be delivered, and rows of edges and of
steps. -/

namespace Sys2Proof.Laws

open Sys2Proof.Machine

theorem operand_toNat (v : Word) : (operand v).toNat = v.toNat := by
  have h := v.isLt
  simp only [operand, zext64, BitVec.toNat_setWidth]
  omega

/-- An edge without a reset takes what it delivers from the front of the pending results and puts the
Mixer of what it accepts at their end (20_memory.md R48, R53). -/
theorem pendingResults_edge (b : Block) (p : Ports) (hr : p.rst = false) :
    (b.delivery p).toList ++ (b.edge p).pendingResults =
      b.pendingResults ++ (b.acceptance p).toList.map mixPair := by
  rcases edge_cases b p with h | ⟨-, -, he, ha, hd⟩ | ⟨-, -, he, ha, hd⟩
  · simp [hr] at h
  · rw [he, ha, hd]
    obtain ⟨s1, s2, s3⟩ := b
    cases s1 <;> cases s2 <;> cases s3 <;> cases hv : p.inValid <;>
      simp [Block.pendingResults, Block.advance, mixPair, mixer, hv]
  · rw [he, ha, hd]
    simp

theorem edges_cons (b : Block) (p : Ports) (ps : List Ports) :
    b.edges (p :: ps) = (b.edge p).edges ps := rfl

theorem clocks_cons (s : State) (p : Ports) (ps : List Ports) :
    s.clocks (p :: ps) = (State.clock { s with pins := p }).clocks ps := rfl

theorem after_succ_of_next {s t : State} (n : Nat) (h : step s = .next t) :
    s.after (n + 1) = t.after n := by
  simp [State.after, h]

/-- One step of the host interface's run, for any machine. -/
theorem host_run_succ (M : Host.Core) (n : Nat) (s : M.State) :
    M.run (n + 1) s = match M.step s with
      | .next t => M.run n t
      | .fault f => .fault f
      | .refused r => .refused r := by
  rfl

/-- `State.after` is the host interface's run, in the model's own names. -/
theorem run_eq_after (n : Nat) (s : State) : Sys2Proof.core.run n s = State.after n s := by
  induction n generalizing s with
  | zero => rfl
  | succ n ih =>
    rw [host_run_succ Sys2Proof.core n s, State.after]
    cases h : step s with
    | next t =>
      simp only [Sys2Proof.core, h]
      exact ih t
    | fault f => simp only [Sys2Proof.core, h]
    | refused r => simp only [Sys2Proof.core, h]

end Sys2Proof.Laws
end

