-- ==== Sys2Proof/Tests/Slice0.lean ====
section
/-! SUPPORT. Tests. Expected values are those of 95_test_vectors.md (the vector's id stands in each
comment), or are written out from the rule named. After them, one witness for every statement that has
hypotheses, at the boundary values of its clauses. -/

namespace Sys2Proof.Tests

open Sys2Proof.Machine Sys2Proof.Laws

/-! ## Encoding (30_encoding.md R60, R63) -/

-- R60 bit by bit: beat = m[31..0] then c[31..0]; m = 1 (bit 32), c = 1 (bit 0)
theorem test_decode_one_one :
    decodeTableWord 64
      0b0000000000000000000000000000000100000000000000000000000000000001 = some (.mix 1 1) := by
  decide

-- P2's beat of T4; the message stands in the upper half
theorem test_decode_message_high :
    decodeBeat 0x123456789abcdef0 = .mix 0x12345678 0x9abcdef0 := by decide

-- R65: a fixed length of 64 bits; a row of another length is refused by name
theorem test_decode_refuses_other_lengths :
    decodeBits 72 1 = .error (.notABeatsLength 72) ∧ decodeBits 32 1 = .error (.notABeatsLength 32) ∧
      decodeBits 0 0 = .error (.notABeatsLength 0) ∧ decodeBits 64 1 = .ok (.mix 0 1) := by decide

-- log 13: up to 64 bits of the opcode table stand in one 64-bit beat; 72 bits place nothing
theorem test_table_bits :
    decodeTableWord 72 1 = none ∧ State.reset.withFetchWord 72 1 = State.reset ∧
      decodeTableWord 32 0xffffffff = some (.mix 0 0xffffffff) ∧
      (State.reset.withFetchWord 64 0x0000000100000001).host.prog = [Stmt.mixOf 1 1] := by decide

theorem test_encode : encode (.mix 0xdeadbeef 0xcafebabe) = 0xdeadbeefcafebabe := by decide

/-! ## WellFormed: an ill-formed program for each check -/

def loopCycle : RawCycle :=
  { rst := true, inValid := false, inM := 0, inC := 0, outReady := .sameAsInReady, readsOut := false }

-- R144: a program that offers before it resets, and (log 27) one that drives an idle cycle before it;
-- R147: a program that closes the combinational loop
theorem test_illformed_programs_refused :
    Program.wellFormed [Stmt.mixOf 1 1, .drain] = false ∧
      Program.wellFormed [.ready true, .idle 1, .reset] = false ∧
      Program.wellFormed [] = false ∧
      Program.wellFormed [.reset, .raw loopCycle] = false ∧
      RawCycle.loopFree loopCycle = false := by decide

theorem test_wellformed_program_accepted :
    Program.wellFormed [.ready true, .idle 0, .reset, Stmt.mixOf 1 1, .drain, .take ['r']] = true ∧
      (Instr.mix 1 1).wellFormed = true := by decide

/-! ## The Mixer (40_mix.md R80-R86) -/

-- X17: the carry of 2*m*c is dropped
theorem test_terms_x17 :
    mixTerms 0xdeadbeef 0xcafebabe =
      { w := 0xa0f6fc2af140a504, x := 0x612556f7119eb6c4, y := 0xc1b1cd12216da321 } ∧
      mixAccumulate (mixTerms 0xdeadbeef 0xcafebabe) = 0x8292fa18b295b2ee ∧
      mixer 0xdeadbeef 0xcafebabe = 0xfa18b295 := by decide

-- X22: the 64-bit sum wraps
theorem test_terms_x22 :
    mixTerms 0xffffffff 0x80000000 =
      { w := 0x4000000000000000, x := 0xffffffff00000000, y := 0xfffffffe00000001 } ∧
      mixAccumulate (mixTerms 0xffffffff 0x80000000) = 0x0000000040000000 ∧
      mixer 0xffffffff 0x80000000 = 0x00004000 := by decide

-- V1, V2, X5, X8, X11, X12, X14, X15, X16, X19, X20, X24
theorem test_mixer_vectors :
    [mixer 0 0, mixer 1 1, mixer 0xffffffff 0xffffffff, mixer 0x80000000 0x80000000, mixer 0x100 0,
      mixer 0xff 0, mixer 0 0x01000000, mixer 0 0x00ffffff, mixer 0x12345678 0x9abcdef0,
      mixer 0xffffffff 1, mixer 1 0xffffffff, mixer 0xffff 0xffffffff] =
    [0, 0x00010000, 0xfffe0000, 0x00004000, 0, 0xfe010000, 1, 0, 0xacdca5e2, 0x0002ffff, 0x0003ffff,
      0xfffffffe] := by decide

-- the 128-bit view of X16: the lanes Z3 Z2 Z1 Z0
theorem test_lanes_x16 :
    [laneZ3 (beatSquare 0x12345678 0x9abcdef0), laneZ2 (beatSquare 0x12345678 0x9abcdef0),
      laneZ1 (beatSquare 0x12345678 0x9abcdef0), laneZ0 (beatSquare 0x12345678 0x9abcdef0)] =
    [0x014b66dc, 0x33f6acdc, 0xa5e20890, 0xf2a52100] := by decide

/-! ## Single edges (95_test_vectors.md, section 3) -/

-- A is the terms of (1, 1), B an accumulated word, C a result
def fullBlock : Block :=
  { s1 := some { w := 1, x := 2, y := 1 }, s2 := some 0xfffffffe00000000, s3 := some 0x00010000 }

def ports (rst inValid outReady : Bool) : Ports :=
  { rst := rst, inValid := inValid, inM := 2, inC := 3, outReady := outReady }

-- the terms of (2, 3), row X18
def termsTwoThree : Terms := { w := 9, x := 0xc, y := 4 }

-- E1, E2: an empty block accepts although out_ready = 0
theorem test_edge_empty :
    Block.empty.edge (ports false true false) = { s1 := some termsTwoThree, s2 := none, s3 := none } ∧
      Block.empty.accepts (ports false true false) = true ∧
      Block.empty.edge (ports false false true) = Block.empty := by decide

-- E3: S3 is empty, so the pipeline moves although out_ready = 0
theorem test_edge_moves_into_empty_s3 :
    { fullBlock with s3 := none }.edge (ports false true false) =
      { s1 := some termsTwoThree, s2 := some 0x0000000100000002, s3 := some 0xfffe0000 } := by decide

-- E4, E7: hold; the empty S1 is not filled
theorem test_edge_hold :
    fullBlock.edge (ports false true false) = fullBlock ∧
      fullBlock.accepts (ports false true false) = false ∧
      { fullBlock with s1 := none }.edge (ports false true false) = { fullBlock with s1 := none } := by
  decide

-- E5: deliver and accept at the same edge
theorem test_edge_deliver_and_accept :
    fullBlock.edge (ports false true true) =
        { s1 := some termsTwoThree, s2 := some 0x0000000100000002, s3 := some 0xfffe0000 } ∧
      fullBlock.delivery (ports false true true) = some 0x00010000 ∧
      fullBlock.acceptance (ports false true true) = some (2, 3) := by decide

-- E8: no accept and no deliver at a reset
theorem test_edge_reset :
    fullBlock.edge (ports true true true) = Block.empty ∧
      fullBlock.inReady true true = false ∧ fullBlock.outValid true = false ∧
      fullBlock.outR true = none := by decide

/-! ## MIX as the first instruction after reset -/

def blockOf : Host.Outcome State Fault Refusal → Option Block
  | .next s => some s.block
  | .fault _ => none
  | .refused _ => none

-- P1, cycle 1 to 2: the accept of T1
theorem test_mix_first_step :
    blockOf (step (State.reset.withFetchWord 64 0x0000000100000001)) =
      some { s1 := some { w := 1, x := 2, y := 1 }, s2 := none, s3 := none } := by decide

-- P1, cycle 4: DRAIN delivers the result in S3, and TAKE, which takes no cycle, binds it at that edge
theorem test_drain_delivers_and_take_binds :
    (match step { State.reset with
        block := { s1 := none, s2 := none, s3 := some 0x00010000 }
        host := { HostSide.initial with prog := [.drain, .take ['r', '1']], ready := false } } with
      | .next t => t.host.bindings == [(['r', '1'], 0x00010000)] && t.host.prog == []
      | .fault _ => false
      | .refused _ => false) = true := by decide

-- READY 0, then a MIX that the full block does not accept; it stays in the program
theorem test_mix_waits :
    (match step { State.reset with
        block := fullBlock
        host := { HostSide.initial with prog := [.ready false, Stmt.mixOf 2 3] } } with
      | .next t => t.block == fullBlock && t.host.prog == [Stmt.mixOf 2 3]
      | .fault _ => false
      | .refused _ => false) = true := by decide

-- R67: READY 0 holds for all following cycles, also after the program's last statement
theorem test_ready_level_stays :
    ∃ t, State.drive [] { State.reset with host := { HostSide.initial with ready := false } } = .ok t ∧
      t.pins.outReady = false :=
  ⟨_, rfl, rfl⟩

/-! ## Host procedures (95_test_vectors.md, sections 4 and 5) -/

-- S1: the ends of the match set, and three candidates that are none
theorem test_search_part_s1 :
    searchPart [0, 1, 2, 0x7fff, 0x8000, 0x80000000, 0x80007f00, 0x80008000] 1 0x00010000 =
      [1, 0x7fff, 0x80000000, 0x80007f00] := by decide

-- R103: the second and the fourth result equal the target, so 1 and 3 are emitted
theorem test_emit_matches : emitMatches 7 0 [0, 7, 1, 7, 2] = [1, 3] := by decide

-- A2, rows 1, 32, 49 and 50
theorem test_avalanche_rows :
    [(avalanche 1 1)[1]?, (avalanche 1 1)[32]?, (avalanche 1 1)[49]?, (avalanche 1 1)[50]?] =
    [some { message := 0x80000001, chain := 1, result := 0x00020000, flag := false },
      some { message := 0, chain := 1, result := 0, flag := false },
      some { message := 1, chain := 0x00008001, result := 0x00010001, flag := false },
      some { message := 1, chain := 0x00004001, result := 0x00010000, flag := true }] := by decide

-- A1 and A2: the numbers of marked rows
theorem test_avalanche_marked :
    ((avalanche 0 0).filter fun r => r.flag).length = 48 ∧
      ((avalanche 1 1).filter fun r => r.flag).length = 15 := by decide

/-! ## Texts (95_test_vectors.md, section 7) -/

-- H1 to H6
theorem test_parse_accepts :
    [parseHex ['1'], parseHex ['0', '0', '0', '0', '0', '0', '0', '1'],
      parseHex ['D', 'e', 'a', 'd', 'B', 'e', 'e', 'f'], parseHex ['0', 'x', '1', 'a'],
      parseHex ['0', 'X', 'F', 'F', 'F', 'F', 'F', 'F', 'F', 'F'],
      parseHex ['0', '0', '0', '0', '0', '0', '0', '0', '0', '0', '0', '1']] =
    [some 1, some 1, some 0xdeadbeef, some 0x1a, some 0xffffffff, some 1] := by decide

-- H7 to H12
theorem test_parse_refuses :
    [parseHex ['1', '0', '0', '0', '0', '0', '0', '0', '0'], parseHex [], parseHex ['0', 'x'],
      parseHex ['-', '1'], parseHex [' ', '1'], parseHex ['1', '2', 'g', '4']] =
    [none, none, none, none, none, none] := by decide

-- H13: one argument
theorem test_usage_error : runCommand .search [['1']] = usageError .search [['1']] := rfl

-- R66's example
theorem test_asm_text :
    asmText (.mix 1 1) =
        ['M', 'I', 'X', ' ', '0', '0', '0', '0', '0', '0', '0', '1', ',', ' ',
          '0', '0', '0', '0', '0', '0', '0', '1'] ∧
      hex8 0xdeadbeef = ['d', 'e', 'a', 'd', 'b', 'e', 'e', 'f'] := by decide

/-! ## Witnesses: states and operands that meet the hypotheses of the statements -/

-- the block with three transactions in flight: (0xffffffff, 0xffffffff) in S2, (1, 1) in S1 and in S3
def busyState : State :=
  { State.reset with
    block := fullBlock
    accepted := [(0, 0), (1, 1), (0xffffffff, 0xffffffff), (1, 1)]
    delivered := [0]
    host := { HostSide.initial with names := [['a']], results := [0] } }

theorem witness_coherent : busyState.Coherent :=
  ⟨[(0, 0)], some (1, 1), some (0xffffffff, 0xffffffff), some (1, 1), by decide, by decide,
    by decide, by decide, by decide⟩

-- the first and the last row of 64 bits
theorem witness_BeatDecodeAndEncodeAgree :
    (0 : Nat) < 2 ^ 64 ∧ (0xffffffffffffffff : Nat) < 2 ^ 64 := by decide

-- the lengths next to 64
theorem witness_RowsOfAnotherLengthAreNoBeats :
    (63 : Nat) ≠ 64 ∧ (65 : Nat) ≠ 64 ∧ (64 : Nat) ≤ 64 ∧ 64 < (65 : Nat) := by decide

def mixState : State :=
  { busyState with host := { HostSide.initial with prog := [Stmt.mixOf 2 3] } }

def idleState : State :=
  { busyState with host := { HostSide.initial with prog := [.idle 1] } }

theorem witness_StepRunsTheOfferedBeat :
    (∃ t, State.drive mixState.host.prog mixState = .ok t ∧ t.pins.inValid = true) ∧
      (∃ t, State.drive idleState.host.prog idleState = .ok t ∧ t.pins.inValid = false) ∧
      mixState.host.prog = .mix 0x0000000200000003 :: [] ∧
      decodeBeat 0x0000000200000003 = .mix 2 3 ∧
      decodeTableWord 64 0x0000000200000003 = some (.mix 2 3) ∧
      decodeTableWord 32 0x00000003 = some (.mix 0 3) :=
  ⟨⟨_, rfl, rfl⟩, ⟨_, rfl, rfl⟩, by decide, by decide, by decide, by decide⟩

def withPins (b : Block) (p : Ports) : State := { State.reset with block := b, pins := p }

theorem witness_MixIsAcceptedAndTheResultMovesOn :
    ((withPins fullBlock (ports false true true)).pins.rst = false ∧
      (withPins fullBlock (ports false true true)).pins.outReady = true) ∧
    ((withPins Block.empty (ports false true false)).pins.rst = false ∧
      (withPins Block.empty (ports false true false)).block.s3 = none) := by decide

theorem witness_MixWaitsWhileTheResultIsNotTaken :
    (withPins fullBlock (ports false true false)).pins.rst = false ∧
      (withPins fullBlock (ports false true false)).block.s3 = some 0x00010000 ∧
      (withPins fullBlock (ports false true false)).pins.outReady = false := by decide

theorem witness_MixOfferedInAResetCycleIsNotAccepted :
    (withPins fullBlock (ports true true true)).pins.rst = true := by decide

theorem witness_EveryEdgeFollowsTheStepRule :
    (ports true true true).rst = true ∧ (ports false true true).rst = false ∧
      (fullBlock.s3 = none ∨ (ports false true true).outReady = true) ∧
      ¬ (fullBlock.s3 = none ∨ (ports false true false).outReady = true) ∧
      fullBlock.delivers (ports false true true) = true := by decide

theorem witness_OutRIsS3WhileOutValid :
    fullBlock.outValid false = true ∧ Block.empty.outValid false = false := by decide

theorem witness_reset_edges :
    (withPins fullBlock (ports true true true)).pins.rst = true ∧ (ports true true true).rst = true ∧
      (∀ q ∈ [ports true false false], q.rst = true) ∧ (ports false true false).rst = false ∧
      (ports false true false).inValid = true := by decide

theorem witness_NoReset : NoReset [ports false true true, ports false false false] := by
  unfold NoReset
  decide

theorem witness_OffersCountOnlyAtTheAcceptingEdge :
    (ports false true false).rst = (ports false false false).rst ∧
      (ports false true false).outReady = (ports false false false).outReady ∧
      fullBlock.accepts (ports false true false) = false ∧
      fullBlock.accepts (ports false false false) = false ∧
      Block.empty.accepts (ports false true false) = true := by decide

theorem witness_OfferedResultStaysUntilTaken :
    fullBlock.outR false = some 0x00010000 ∧
      ∀ p ∈ [ports false true false, ports false false false], p.rst = false ∧ p.outReady = false := by
  decide

theorem witness_EveryStepKeepsThePipelineCoherent :
    mixState.Coherent ∧ ∃ t, step mixState = .next t :=
  ⟨witness_coherent, _, rfl⟩

theorem witness_KthDeliverIsTheMixerOfTheKthAccept :
    busyState.Coherent ∧ busyState.delivered[0]? = some 0 :=
  ⟨witness_coherent, by decide⟩

theorem witness_TakeBindsTheKthResult :
    busyState.Coherent ∧ busyState.host.results = busyState.delivered ∧
      busyState.host.bindings[0]? = some (['a'], 0) :=
  ⟨witness_coherent, by decide, by decide⟩

-- two transactions of the pair (1, 1), both delivered
def twiceState : State :=
  { State.reset with accepted := [(1, 1), (1, 1)], delivered := [0x00010000, 0x00010000] }

theorem witness_SamePairGivesTheSameResult :
    twiceState.Coherent ∧ twiceState.accepted[0]? = some (1, 1) ∧
      twiceState.accepted[1]? = some (1, 1) ∧ twiceState.delivered[0]? = some 0x00010000 ∧
      twiceState.delivered[1]? = some 0x00010000 :=
  ⟨⟨[(1, 1), (1, 1)], none, none, none, by decide, by decide, by decide, by decide, by decide⟩,
    by decide, by decide, by decide, by decide⟩

theorem witness_BlockDrainsWithinThreeEdges :
    ∀ e ∈ [ports false false true, ports false false true, ports false false true],
      e.rst = false ∧ e.inValid = false ∧ e.outReady = true := by decide

-- one stall edge between the advances
theorem witness_ResultReachesS3AfterTwoAdvances :
    fullBlock.accepts (ports false true true) = true ∧
      (fullBlock.edge (ports false true true)).advances [ports false true true] = 1 ∧
      (fullBlock.edge (ports false true true)).advances
        [ports false true true, ports false true false, ports false true true] = 2 ∧
      (ports false false true).rst = false ∧ (ports false false true).outReady = true := by decide

theorem witness_ThreeReadyEdgesDeliverWhatIsInFlight :
    3 ≤ readyEdges [ports false true true, ports false false true, ports false true false,
      ports false false true] := by decide

theorem witness_StuckHostHoldsTheBlockForEver :
    busyState.block.v3 = true ∧
      (∀ p ∈ [ports false true false, ports false false false], p.rst = false ∧ p.outReady = false) ∧
      State.StuckOnHost { busyState with
        host := { HostSide.initial with prog := [Stmt.mixOf 2 3], ready := false } } :=
  ⟨by decide, by decide, by decide, by decide, _, _, rfl⟩

def readingCycle : RawCycle :=
  { rst := false, inValid := false, inM := 0, inC := 0, outReady := .level false, readsOut := true }

-- a READY in front of the raw cycle takes no cycle
def rawState (b : Block) (c : RawCycle) : State :=
  { State.reset with
    block := b
    host := { HostSide.initial with prog := [.ready false, .raw c] } }

-- the two refusals happen; a read with out_valid = 1 is reached; a program without raw cycles
theorem witness_StepsAreRefusedOnlyAsTheSpecSays :
    step (rawState Block.empty readingCycle) = .refused .outRWhileNotValid ∧
      step (rawState fullBlock loopCycle) = .refused .combinationalLoop ∧
      ((rawState fullBlock readingCycle).load [.ready false, .raw readingCycle]).host.prog =
        .raw readingCycle :: [] ∧
      ((rawState Block.empty loopCycle).load [.ready false, .raw loopCycle]).host.prog =
        .raw loopCycle :: [] ∧
      readingCycle.outReady ≠ .sameAsInReady ∧ loopCycle.outReady = .sameAsInReady ∧
      readingCycle.readsOut = true ∧ fullBlock.outValid readingCycle.rst = true ∧
      Block.empty.outValid readingCycle.rst = false ∧
      (∀ c rest, (mixState.load mixState.host.prog).host.prog ≠ .raw c :: rest) ∧
      ∀ c, Stmt.raw c ∉ mixState.host.prog :=
  ⟨rfl, rfl, by decide, by decide, by decide, by decide, by decide, by decide, by decide, (fun _ _ h => by cases h),
    (fun c => by simp [mixState, Stmt.mixOf])⟩

-- with a result in S3 the read is made; with none it is refused; the loop is refused
theorem witness_ReadingOutRNeedsOutValid :
    readingCycle.outReady ≠ .sameAsInReady ∧ readingCycle.readsOut = true ∧
      readingCycle.rst = false ∧ fullBlock.s3 = some 0x00010000 ∧
      Block.empty.outValid readingCycle.rst = false ∧ loopCycle.outReady = .sameAsInReady ∧
      { HostSide.initial with prog := [.raw readingCycle] }.prog = .raw readingCycle :: [] ∧
      { HostSide.initial with prog := [.raw loopCycle] }.prog = .raw loopCycle :: [] := by decide

theorem witness_HostStatementsDriveTheirCycles :
    mixState.host.prog = Stmt.mixOf 2 3 :: [] ∧ idleState.host.prog = .idle (0 + 1) :: [] ∧
      fullBlock.occ ≠ 0 ∧
      { HostSide.initial with prog := [.reset] }.prog = .reset :: [] ∧
      { HostSide.initial with prog := [.drain] }.prog = .drain :: [] ∧
      { HostSide.initial with prog := [.ready false] }.prog = .ready false :: [] ∧
      { HostSide.initial with prog := [.take ['a']] }.prog = .take ['a'] :: [] ∧
      { HostSide.initial with prog := [.idle 0] }.prog = .idle 0 :: [] ∧ Block.empty.occ = 0 ∧
      HostSide.initial.prog = [] := by decide

theorem witness_StreamOfOffersDeliversTheMixerOfEach :
    [((1 : Word), (1 : Word))] ≠ [] ∧ HostSide.initial.ready = true ∧
      { HostSide.initial with prog := streamProgram [(1, 1)] ++ [] }.prog =
        streamProgram [(1, 1)] ++ [] := by decide

-- an IDLE of no cycle, one of three, and a DRAIN
theorem witness_IdleAndDrainTakeExactlyTheirCycles :
    { HostSide.initial with prog := [.idle 0] }.prog = .idle 0 :: [] ∧
      { HostSide.initial with prog := [.idle 3, .take ['a']] }.prog = .idle 3 :: [.take ['a']] ∧
      { HostSide.initial with prog := [.drain] }.prog = .drain :: [] := by decide

def hostWith (prog : Program) : State :=
  { busyState with host := { HostSide.initial with prog := prog } }

theorem witness_TakesAfterTheDrainBindAtItsLastEdge :
    [((1 : Word), (1 : Word))] ≠ [] ∧ ([['r', '1']] : List Text).length = [((1 : Word), (1 : Word))].length ∧
      (hostWith []).host.ready = true ∧ (hostWith []).host.names = [] ∧
      (hostWith []).host.results = [] ∧
      (hostWith [.reset, Stmt.mixOf 1 1, .drain, .take ['r', '1']]).host.prog =
        streamProgram [(1, 1)] ++ [['r', '1']].map Stmt.take := by decide

theorem witness_BlockResultsGiveTheHostProcedures :
    (hostWith (searchProgram 1 ++ [])).host.ready = true ∧
      (hostWith (searchProgram 1 ++ [])).host.prog = searchProgram 1 ++ [] ∧
      (hostWith (avalancheProgram 1 1 ++ [])).host.ready = true ∧
      (hostWith (avalancheProgram 1 1 ++ [])).host.prog = avalancheProgram 1 1 ++ [] :=
  ⟨rfl, rfl, rfl, rfl⟩

-- products just below 2^63 and just above it (2^63 itself is no product of two 32-bit operands)
theorem witness_CrossTermsHaveTheirValues :
    2 ^ 63 ≤ (0xffffffff : Word).toNat * (0x80000001 : Word).toNat ∧
      (0xffffffff : Word).toNat * (0x80000000 : Word).toNat < 2 ^ 63 := by decide

-- two words and two triples that differ above the bits that count
theorem witness_ResultDependsOnTheLow48BitsOfZ :
    (0x0001000000000000 : DWord).toNat % 2 ^ 48 = (0 : DWord).toNat % 2 ^ 48 ∧
      ((5 : DWord) >>> 32).toNat % 2 ^ 48 = ((0 : DWord) >>> 32).toNat % 2 ^ 48 ∧
      (0x0003000000000000 : DWord).toNat % 2 ^ 48 = (0 : DWord).toNat % 2 ^ 48 ∧
      (0x0000000000010000 : DWord).toNat % 2 ^ 16 = (0 : DWord).toNat % 2 ^ 16 := by decide

theorem witness_PartitionedSearchEmitsTheSameMatches : IsPartition [searchDomain] := by
  unfold IsPartition
  rw [List.flatten_singleton]

theorem witness_AvalancheHasItsRowsInOrder : (0 : Nat) < 32 ∧ (31 : Nat) < 32 := by decide

theorem witness_ValuesPrintAsEightLowercaseHexDigits : (0 : Nat) < 8 ∧ (7 : Nat) < 8 := by decide

theorem witness_UsageErrorIsTheOnlyCommandError :
    ([['1']] : List Text).length ≠ 2 ∧ (∃ a ∈ ([['1'], ['0', 'x']] : List Text), parseHex a = none) ∧
      ¬ (([['1'], ['f']] : List Text).length ≠ 2 ∨
        ∃ a ∈ ([['1'], ['f']] : List Text), parseHex a = none) := by decide

theorem witness_CommandsPrintTheirResults :
    parseHex ['1'] = some 1 ∧ parseHex ['0', 'x', 'f'] = some 0xf := by decide

theorem witness_BlocksSideBySideAreIndependent :
    (0 : Nat) ≠ 1 ∧ ∃ q r, Platform.stepAt [mixState, idleState] 0 = .next q ∧
      Platform.stepAt q 1 = .next r :=
  ⟨by decide, _, _, rfl, rfl⟩

end Sys2Proof.Tests
end

section
/-! The state after a reset (10_state.md R33): empty stages, an empty record, and the agreement of the two. -/

namespace Sys2Proof.Proofs

open Sys2Proof.Machine Sys2Proof.Laws

@[simp] theorem occ_empty : Block.empty.occ = 0 := rfl

theorem clock_block_of_rst (s : State) (h : s.pins.rst = true) : s.clock.block = Block.empty := by
  rw [clock_block, edge_of_rst s.block s.pins h]

/-- Empty stages hold no transaction. -/
theorem holdsTransactions_empty : Block.empty.HoldsTransactions none none none := ⟨rfl, rfl, rfl⟩

/-- With nothing accepted, nothing delivered and nothing in flight the record and the pipeline agree: the
base of the invariant, at the reset state and after every reset edge (70_reset_and_hazards.md R141). -/
theorem coherent_of_nothing_accepted {s : State} (hb : s.block = Block.empty) (ha : s.accepted = [])
    (hd : s.delivered = []) : s.Coherent := by
  refine ⟨[], none, none, none, ?accepted, ?delivered, ?stages⟩
  case accepted => simp [ha, inFlightPairs]
  case delivered => simp [hd]
  case stages => rw [hb]; exact holdsTransactions_empty

/-- Settles O11, by the reset case of the edge. -/
theorem resetEdgeEmptiesEveryStage : Obligations.ResetEdgeEmptiesEveryStage := by
  intro s hr
  have hb : s.clock.block = Block.empty := clock_block_of_rst s hr
  have ho : s.clock.block.occ = 0 := by rw [hb, occ_empty]
  exact ⟨hb, ho, rfl⟩

/-- Settles O19: at reset nothing has been accepted and nothing is in flight. -/
theorem resetStateIsCoherent : Obligations.ResetStateIsCoherent :=
  coherent_of_nothing_accepted rfl rfl rfl

end Sys2Proof.Proofs
end

section
/-! The edge and the two handshakes (20_memory.md R42-R48): what the ports answer, when a pair is accepted or a
result delivered, and the three forms of a clocked edge, one for each case of `clock_cases`. -/

namespace Sys2Proof.Proofs

open Sys2Proof.Machine Sys2Proof.Laws

section
variable (b : Block) (p : Ports)

theorem inReady_eq_true_iff (rst o : Bool) :
    b.inReady rst o = true ↔ rst = false ∧ b.en o = true := by
  simp [Block.inReady]

theorem outValid_eq_true_iff (rst : Bool) : b.outValid rst = true ↔ rst = false ∧ b.s3 ≠ none := by
  simp [Block.outValid, Block.v3, Option.isSome_iff_ne_none]

theorem accepts_eq_true_iff :
    b.accepts p = true ↔ p.rst = false ∧ b.en p.outReady = true ∧ p.inValid = true := by
  rw [Block.accepts, Bool.and_eq_true, inReady_eq_true_iff, and_comm, and_assoc]

theorem delivers_eq_true_iff :
    b.delivers p = true ↔ p.rst = false ∧ b.s3 ≠ none ∧ p.outReady = true := by
  rw [Block.delivers, Bool.and_eq_true, outValid_eq_true_iff, and_assoc]

/-- A full `S3` that the host does not take stops the pipeline, and nothing else does. -/
theorem en_eq_false_iff_ne_none (o : Bool) : b.en o = false ↔ b.s3 ≠ none ∧ o = false := by
  rw [en_eq_false_iff, Option.ne_none_iff_exists']

theorem outR_of_outValid {rst : Bool} (h : b.outValid rst = true) : b.outR rst = b.s3 := if_pos h

theorem outR_of_not_outValid {rst : Bool} (h : b.outValid rst = false) : b.outR rst = none := by
  simp [Block.outR, h]

/-- `out_r` has a value exactly in a cycle without reset in which `S3` holds it. -/
theorem outR_eq_some_iff (rst : Bool) (r : Word) :
    b.outR rst = some r ↔ rst = false ∧ b.s3 = some r := by
  cases rst <;> cases h : b.s3 <;> simp [Block.outR, Block.outValid, Block.v3, h]

theorem acceptance_of_accepts (h : b.accepts p = true) :
    b.acceptance p = some (p.inM, p.inC) := if_pos h

theorem acceptance_of_not_accepts (h : b.accepts p = false) : b.acceptance p = none := by
  simp [Block.acceptance, h]

theorem inValid_of_not_accepts (hr : p.rst = false) (he : b.en p.outReady = true)
    (h : b.accepts p = false) : p.inValid = false := by
  simpa [Block.accepts, Block.inReady, hr, he] using h

@[simp] theorem advance_s1 :
    (b.advance p).s1 = if p.inValid then some (mixTerms p.inM p.inC) else none := rfl
@[simp] theorem advance_s2 : (b.advance p).s2 = b.s1.map mixAccumulate := rfl
@[simp] theorem advance_s3 : (b.advance p).s3 = b.s2.map mixExtract := rfl

/-- With no offer to take, the pipeline is empty once it has advanced as often as it has stages. -/
theorem advance_thrice_of_no_offer {p q r : Ports} (hp : p.inValid = false) (hq : q.inValid = false)
    (hr : r.inValid = false) : ((b.advance p).advance q).advance r = Block.empty := by
  simp [Block.advance, Block.empty, hp, hq, hr]

/-- A row of edges that all hold leaves every stage as it was. -/
theorem edges_of_hold {b : Block} {ps : List Ports}
    (h : ∀ p ∈ ps, p.rst = false ∧ b.en p.outReady = false) : b.edges ps = b := by
  induction ps with
  | nil => rfl
  | cons p ps ih =>
    obtain ⟨⟨hr, he⟩, htail⟩ := List.forall_mem_cons.1 h
    rw [edges_cons, edge_of_hold b p hr he, ih htail]

end

section
variable {s : State}

theorem clock_of_rst (hr : s.pins.rst = true) :
    s.clock = { s with
      block := Block.empty, accepted := [], delivered := [], cycle := s.cycle + 1 } := by
  rcases clock_cases s with ⟨-, h⟩ | ⟨hr', -⟩ | ⟨hr', -⟩
  · exact h
  · simp [hr] at hr'
  · simp [hr] at hr'

theorem clock_of_en (hr : s.pins.rst = false) (he : s.block.en s.pins.outReady = true) :
    s.clock = { s with
      block := s.block.advance s.pins
      accepted := s.accepted ++ (if s.pins.inValid then [(s.pins.inM, s.pins.inC)] else [])
      delivered := s.delivered ++ s.block.s3.toList
      host := s.host.receive s.block.s3
      cycle := s.cycle + 1 } := by
  rcases clock_cases s with ⟨hr', -⟩ | ⟨-, -, h⟩ | ⟨-, he', -⟩
  · simp [hr] at hr'
  · exact h
  · simp [he] at he'

theorem clock_of_hold (hr : s.pins.rst = false) (he : s.block.en s.pins.outReady = false) :
    s.clock = { s with cycle := s.cycle + 1 } := by
  rcases clock_cases s with ⟨hr', -⟩ | ⟨-, he', -⟩ | ⟨-, -, h⟩
  · simp [hr] at hr'
  · simp [he] at he'
  · exact h

end

/-- The meaning of a MIX is one offering cycle with its edge. -/
theorem exec_mix_eq_clock (m c : Word) (s : State) :
    exec (.mix m c) s = .next (s.offer m c).clock := rfl

/-- Settles O5: the edge of an offering cycle that advances. -/
theorem mixIsAcceptedAndTheResultMovesOn : Obligations.MixIsAcceptedAndTheResultMovesOn := by
  intro m c s hr hfree
  have he : s.block.en s.pins.outReady = true := (en_eq_true_iff _ _).2 hfree
  rw [exec_mix_eq_clock, clock_of_en (s := s.offer m c) hr he, ← hr]
  rfl

/-- Settles O6: the edge of an offering cycle that holds. -/
theorem mixWaitsWhileTheResultIsNotTaken : Obligations.MixWaitsWhileTheResultIsNotTaken := by
  intro m c r s hr h3 ho
  have he : s.block.en s.pins.outReady = false := (en_eq_false_iff _ _).2 ⟨⟨r, h3⟩, ho⟩
  rw [exec_mix_eq_clock, clock_of_hold (s := s.offer m c) hr he]
  rfl

/-- Settles O7: the edge of an offering cycle that resets. -/
theorem mixOfferedInAResetCycleIsNotAccepted : Obligations.MixOfferedInAResetCycleIsNotAccepted := by
  intro m c s hr
  rw [exec_mix_eq_clock, clock_of_rst (s := s.offer m c) hr]
  rfl

/-- At an edge without reset every stage keeps its transaction or hands it on: `S1` to `S2`, `S2` to `S3`, and
`S3` to the host (20_memory.md R47). -/
theorem edge_overwrites_no_transaction (b : Block) (p : Ports) (hr : p.rst = false) :
    ((b.edge p).s1 = b.s1 ∨ (b.edge p).s2 = b.s1.map mixAccumulate) ∧
    ((b.edge p).s2 = b.s2 ∨ (b.edge p).s3 = b.s2.map mixExtract) ∧
    ((b.edge p).s3 = b.s3 ∨ b.delivery p = b.s3) := by
  rcases edge_cases b p with ⟨hr', -⟩ | ⟨-, -, he, -, hd⟩ | ⟨-, -, he, -, -⟩
  · simp [hr] at hr'
  · rw [he]
    exact ⟨.inr rfl, .inr rfl, .inr hd⟩
  · rw [he]
    exact ⟨.inl rfl, .inl rfl, .inl rfl⟩

/-- A deliver moves the pipeline on: what `S2` held takes the place of the result (20_memory.md R48). -/
theorem edge_of_delivers (b : Block) (p : Ports) (h : b.delivers p = true) :
    b.en p.outReady = true ∧ (b.edge p).s3 = b.s2.map mixExtract ∧ b.delivery p = b.s3 := by
  obtain ⟨hr, -, ho⟩ := (delivers_eq_true_iff b p).1 h
  have he : b.en p.outReady = true := (en_eq_true_iff b _).2 (.inr ho)
  exact ⟨he, by rw [edge_of_en b p hr he, advance_s3], delivery_of_en b p hr he⟩

/-- Settles O8, case by case of 20_memory.md R48. -/
theorem everyEdgeFollowsTheStepRule : Obligations.EveryEdgeFollowsTheStepRule := by
  intro b p
  refine ⟨?reset, ?advance, ?hold, en_eq_false_iff_ne_none b p.outReady, accepts_eq_true_iff b p,
    delivers_eq_true_iff b p, edge_of_delivers b p, edge_overwrites_no_transaction b p⟩
  case reset => exact edge_of_rst b p
  case advance =>
    intro hr hfree
    exact edge_of_en b p hr ((en_eq_true_iff b _).2 hfree)
  case hold =>
    intro hr hfull
    rw [← en_eq_true_iff, Bool.not_eq_true] at hfull
    exact edge_of_hold b p hr hfull

/-- Settles O9, by the equivalences for `en` and `in_ready`. -/
theorem inReadyFollowsS3AndOutReady : Obligations.InReadyFollowsS3AndOutReady :=
  fun b rst outReady => ⟨en_eq_true_iff b outReady, inReady_eq_true_iff b rst outReady⟩

/-- Settles O10, by the equivalence for `out_valid` and its two cases for `out_r`. -/
theorem outRIsS3WhileOutValid : Obligations.OutRIsS3WhileOutValid :=
  fun b rst => ⟨outValid_eq_true_iff b rst, outR_of_outValid b, outR_of_not_outValid b⟩

/-- Of a cycle that does not accept, `rst` and `out_ready` alone decide the edge (20_memory.md R45). -/
theorem edge_eq_of_not_accepts {b : Block} {p q : Ports} (hr : p.rst = q.rst)
    (ho : p.outReady = q.outReady) (hp : b.accepts p = false) (hq : b.accepts q = false) :
    b.edge p = b.edge q := by
  rcases edge_cases b p with ⟨hrp, he, -⟩ | ⟨hrp, hen, he, -⟩ | ⟨hrp, hen, he, -⟩
  · rw [he, edge_of_rst b q (hr ▸ hrp)]
  · have hrq : q.rst = false := hr ▸ hrp
    have henq : b.en q.outReady = true := ho ▸ hen
    have hvp : p.inValid = false := inValid_of_not_accepts b p hrp hen hp
    have hvq : q.inValid = false := inValid_of_not_accepts b q hrq henq hq
    rw [he, edge_of_en b q hrq henq]
    simp [Block.advance, hvp, hvq]
  · rw [he, edge_of_hold b q (hr ▸ hrp) (ho ▸ hen)]

/-- Settles O16: without an accept the offer decides nothing, and with one it is what `S1` takes. -/
theorem offersCountOnlyAtTheAcceptingEdge : Obligations.OffersCountOnlyAtTheAcceptingEdge := by
  intro b p q hr ho
  refine ⟨fun hp hq => ?waiting, fun hp => ?accepting⟩
  case waiting =>
    have hd : b.delivery p = b.delivery q := by
      rw [Block.delivery, Block.delivery, Block.delivers, Block.delivers, hr, ho]
    exact ⟨edge_eq_of_not_accepts hr ho hp hq, acceptance_of_not_accepts b p hp,
      acceptance_of_not_accepts b q hq, hd⟩
  case accepting =>
    obtain ⟨hrst, hen, hv⟩ := (accepts_eq_true_iff b p).1 hp
    exact ⟨acceptance_of_accepts b p hp, by simp [edge_of_en b p hrst hen, hv]⟩

/-- Settles O17: while the result in `S3` is not taken, every edge holds. -/
theorem offeredResultStaysUntilTaken : Obligations.OfferedResultStaysUntilTaken := by
  intro b r ps hout hps
  obtain ⟨-, h3⟩ := (outR_eq_some_iff b false r).1 hout
  have hhold : b.edges ps = b := by
    refine edges_of_hold fun p hp => ?_
    obtain ⟨hr, ho⟩ := hps p hp
    exact ⟨hr, (en_eq_false_iff b _).2 ⟨⟨r, h3⟩, ho⟩⟩
  rw [hhold]
  exact ⟨(outValid_eq_true_iff b false).2 ⟨rfl, by simp [h3]⟩, hout⟩

end Sys2Proof.Proofs
end

section
/-! The pipeline and the record agree (20_memory.md R53, R54): every edge keeps the agreement, driving the ports
and going on with the host program do not touch it, and so every step keeps it. -/

namespace Sys2Proof.Proofs

open Sys2Proof.Machine Sys2Proof.Laws

/-- The agreement is about the stages and the record alone. -/
theorem coherent_congr {s t : State} (hb : t.block = s.block) (ha : t.accepted = s.accepted)
    (hd : t.delivered = s.delivered) (h : s.Coherent) : t.Coherent := by
  rw [State.Coherent, hb, ha, hd]
  exact h

/-- When the pipeline advances, each transaction in flight is one stage further, and an offered pair is the one
in `S1`. -/
theorem holdsTransactions_advance {b : Block} {p3 p2 p1 : Option Pair} (p : Ports)
    (h : b.HoldsTransactions p3 p2 p1) :
    (b.advance p).HoldsTransactions p2 p1 (if p.inValid then some (p.inM, p.inC) else none) := by
  obtain ⟨-, h2, h1⟩ := h
  refine ⟨?s3, ?s2, ?s1⟩
  case s3 => rw [advance_s3, h2, Option.map_map]; rfl
  case s2 => rw [advance_s2, h1, Option.map_map]; rfl
  case s1 => cases hv : p.inValid <;> simp [hv]

/-- The result in `S3` belongs to the oldest transaction in flight, so its pair is the next one served. -/
theorem clock_coherent {s : State} (h : s.Coherent) : s.clock.Coherent := by
  rcases clock_cases s with ⟨-, hc⟩ | ⟨-, -, hc⟩ | ⟨-, -, hc⟩
  · rw [hc]
    exact coherent_of_nothing_accepted rfl rfl rfl
  · obtain ⟨served, p3, p2, p1, hacc, hdel, hold⟩ := h
    refine ⟨served ++ p3.toList, p2, p1,
      if s.pins.inValid then some (s.pins.inM, s.pins.inC) else none, ?accepted, ?delivered, ?stages⟩
    case accepted =>
      rw [hc, hacc]
      cases hv : s.pins.inValid <;> simp [inFlightPairs]
    case delivered =>
      obtain ⟨h3, -⟩ := hold
      rw [hc, hdel, h3]
      cases p3 <;> simp
    case stages =>
      rw [hc]
      exact holdsTransactions_advance s.pins hold
  · rw [hc]
    exact coherent_congr rfl rfl rfl h

/-- Settles O18: a step is a driving of the ports, an edge and the host's going on, and the edge is the only one
of them that changes the stages or the record. -/
theorem everyStepKeepsThePipelineCoherent : Obligations.EveryStepKeepsThePipelineCoherent := by
  intro s t hs hstep
  obtain ⟨d, hdrive, rfl⟩ := step_next_cases hstep
  obtain ⟨hb, ha, hd, -, -⟩ := drive_frame hdrive
  have hclock : d.clock.Coherent := clock_coherent (coherent_congr hb ha hd hs)
  obtain ⟨rest, ready, names, hafter⟩ := afterEdge_eq d.clock
  rw [hafter]
  exact coherent_congr rfl rfl rfl hclock

/-- As many transactions are in flight as stages are occupied. -/
theorem length_inFlightPairs {b : Block} {p3 p2 p1 : Option Pair} (h : b.HoldsTransactions p3 p2 p1) :
    (inFlightPairs p3 p2 p1).length = b.occ := by
  obtain ⟨h3, h2, h1⟩ := h
  simp only [inFlightPairs, List.length_append, Option.length_toList, Block.occ, Block.v1, Block.v2,
    Block.v3, h1, h2, h3, Option.isSome_map, Bool.toNat, Bool.cond_eq_ite]
  omega

/-- The k-th deliver carries the Mixer of the k-th accepted pair (20_memory.md R53). -/
theorem accepted_of_delivered {s : State} (h : s.Coherent) {k : Nat} {r : Word}
    (hk : s.delivered[k]? = some r) : ∃ p, s.accepted[k]? = some p ∧ r = mixPair p := by
  obtain ⟨served, p3, p2, p1, hacc, hdel, -⟩ := h
  rw [hdel, List.getElem?_map, Option.map_eq_some_iff] at hk
  obtain ⟨p, hp, rfl⟩ := hk
  obtain ⟨hlt, -⟩ := List.getElem?_eq_some_iff.1 hp
  exact ⟨p, by rw [hacc, List.getElem?_append_left hlt, hp], rfl⟩

/-- Settles O20: the served pairs are the first of the accepted ones, and the others are in flight. -/
theorem kthDeliverIsTheMixerOfTheKthAccept : Obligations.KthDeliverIsTheMixerOfTheKthAccept := by
  intro s h
  refine ⟨fun k r hk => ?kth, ?count, occ_le_three s.block⟩
  case kth =>
    obtain ⟨⟨m, c⟩, hp, hr⟩ := accepted_of_delivered h hk
    exact ⟨m, c, hp, hr⟩
  case count =>
    obtain ⟨served, p3, p2, p1, hacc, hdel, hold⟩ := h
    rw [hacc, hdel, List.length_append, List.length_map, length_inFlightPairs hold]

/-- Settles O22: both results are the Mixer of the one pair. -/
theorem samePairGivesTheSameResult : Obligations.SamePairGivesTheSameResult := by
  intro s i j p r r' h hi hj hri hrj
  have result_eq {k : Nat} {w : Word} (hk : s.accepted[k]? = some p) (hw : s.delivered[k]? = some w) :
      w = mixPair p := by
    obtain ⟨q, hq, rfl⟩ := accepted_of_delivered h hw
    rw [hk] at hq
    rw [Option.some.inj hq]
  rw [result_eq hi hri, result_eq hj hrj]

end Sys2Proof.Proofs
end

section
/-! Rows of edges without a reset, from any state (20_memory.md R53, R55): results leave in the order in which
they were pending, and what is accepted queues up behind them. -/

namespace Sys2Proof.Proofs

open Sys2Proof.Machine Sys2Proof.Laws

@[simp] theorem pendingResults_empty : Block.empty.pendingResults = [] := rfl

theorem clock_accepted_of_no_rst {s : State} (hr : s.pins.rst = false) :
    s.clock.accepted = s.accepted ++ (s.block.acceptance s.pins).toList := by
  simp [hr]

theorem clock_delivered_of_no_rst {s : State} (hr : s.pins.rst = false) :
    s.clock.delivered = s.delivered ++ (s.block.delivery s.pins).toList := by
  simp [hr]

/-- At an edge without a reset the row of delivered and pending results grows by the Mixer of the accepted pair,
and by nothing else. -/
theorem clock_delivered_append_pending {s : State} (hr : s.pins.rst = false) :
    s.clock.delivered ++ s.clock.block.pendingResults =
      s.delivered ++ s.block.pendingResults ++ (s.block.acceptance s.pins).toList.map mixPair := by
  rw [clock_delivered_of_no_rst hr, clock_block, List.append_assoc, pendingResults_edge _ _ hr,
    List.append_assoc]

/-- Settles O23, by induction on the row of edges. -/
theorem noResultIsLostOrReordered : Obligations.NoResultIsLostOrReordered := by
  intro s ps hps
  induction ps generalizing s with
  | nil => exact ⟨[], by simp [State.clocks], by simp [State.clocks]⟩
  | cons p ps ih =>
    obtain ⟨hr, htail⟩ := List.forall_mem_cons.1 hps
    obtain ⟨fresh, hacc, hres⟩ := ih (State.clock { s with pins := p }) htail
    refine ⟨(s.block.acceptance p).toList ++ fresh, ?accepted, ?results⟩
    case accepted =>
      rw [clocks_cons, hacc, clock_accepted_of_no_rst hr, List.append_assoc]
    case results =>
      rw [clocks_cons, hres, clock_delivered_append_pending hr, List.map_append,
        List.append_assoc]

/-- A cycle without reset and without an offer, in which the host takes a result. -/
structure Drains (p : Ports) : Prop where
  rst : p.rst = false
  inValid : p.inValid = false
  outReady : p.outReady = true

theorem edge_of_drains {p : Ports} (b : Block) (h : Drains p) : b.edge p = b.advance p :=
  edge_of_en b p h.rst ((en_eq_true_iff b _).2 (.inr h.outReady))

theorem acceptance_of_drains {p : Ports} (b : Block) (h : Drains p) : b.acceptance p = none :=
  acceptance_of_not_accepts b p (by simp [Block.accepts, h.inValid])

/-- Edges that offer nothing accept nothing. -/
theorem clocks_accepted_of_drains {s : State} {ps : List Ports} (h : ∀ p ∈ ps, Drains p) :
    (s.clocks ps).accepted = s.accepted := by
  induction ps generalizing s with
  | nil => rfl
  | cons p ps ih =>
    obtain ⟨hp, htail⟩ := List.forall_mem_cons.1 h
    rw [clocks_cons, ih htail, clock_accepted_of_no_rst hp.rst]
    simp [acceptance_of_drains s.block hp]

/-- Settles O24: three advances empty the stages, and since nothing is lost and nothing accepted, what was
pending has been delivered. -/
theorem blockDrainsWithinThreeEdges : Obligations.BlockDrainsWithinThreeEdges := by
  intro s p q r h
  have hdrains : ∀ e ∈ [p, q, r], Drains e := fun e he =>
    have ⟨hr, hv, ho⟩ := h e he
    ⟨hr, hv, ho⟩
  have hp : Drains p := hdrains p (by simp)
  have hq : Drains q := hdrains q (by simp)
  have hr : Drains r := hdrains r (by simp)
  have hempty : (s.clocks [p, q, r]).block = Block.empty := calc
    (s.clocks [p, q, r]).block = ((s.block.edge p).edge q).edge r := rfl
    _ = ((s.block.advance p).advance q).advance r := by
      rw [edge_of_drains _ hp, edge_of_drains _ hq, edge_of_drains _ hr]
    _ = Block.empty := advance_thrice_of_no_offer s.block hp.inValid hq.inValid hr.inValid
  have hacc : (s.clocks [p, q, r]).accepted = s.accepted := clocks_accepted_of_drains hdrains
  obtain ⟨fresh, hfresh, hres⟩ := noResultIsLostOrReordered s [p, q, r] fun e he => (hdrains e he).rst
  have hnil : fresh = [] := by simpa [hacc] using hfresh
  refine ⟨by rw [hempty, occ_empty], ?delivered, hacc⟩
  simpa [hempty, hnil] using hres

end Sys2Proof.Proofs
end

section
/-! A stream of offers (30_encoding.md R67, 41_host_procedures.md R103): with READY at 1 no cycle of it stalls, so
each offer takes one edge, and the three edges of the DRAIN deliver what is left. -/

namespace Sys2Proof.Proofs

open Sys2Proof.Machine Sys2Proof.Laws

/-! ### Steps and runs over the host's going on -/

/-- With a statement that takes the cycle at its head, a program's step is that cycle and its edge. -/
theorem step_of_turn_cycle {s d : State} {st : Stmt} {rest : Program} (hp : s.host.prog = st :: rest)
    (ht : s.turn rest st = .cycle (.ok d)) : step s = .next d.clock.afterEdge := by
  have hd : State.drive s.host.prog s = .ok d := by rw [hp, State.drive, ht]
  rw [step_eq_clock, hd]

theorem after_zero (s : State) : s.after 0 = .next s := rfl

/-- What the host runs without a cycle at the end of a step it would also run at the start of the next, so a
further step may start before it. -/
theorem after_of_step_afterEdge {s t : State} (h : step s = .next t.afterEdge) {n : Nat} (hn : 0 < n) :
    s.after (n + 1) = t.after n := by
  obtain ⟨k, rfl⟩ := Nat.exists_eq_add_one.2 hn
  have hstep : step t.afterEdge = step t := step_load t
  rw [after_succ_of_next (k + 1) h, State.after, State.after, hstep]

/-! ### The cycles of the three statements of a stream -/

theorem turn_reset (s : State) (rest : Program) :
    s.turn rest .reset = .cycle (.ok (s.drivePins (quietPorts s.cycle true s.host.ready) rest)) := rfl

/-- With the READY level 1 a MIX stays for one cycle only. -/
theorem turn_mixOf_of_ready {s : State} (h : s.host.ready = true) (rest : Program) (m c : Word) :
    s.turn rest (Stmt.mixOf m c) = .cycle (.ok (s.drivePins (offerPorts (beatOf m c) true) rest)) := by
  have hin : s.block.inReady false true = true :=
    (inReady_eq_true_iff _ _ _).2 ⟨rfl, (en_eq_true_iff _ _).2 (.inr rfl)⟩
  simp [State.turn, Stmt.mixOf, encode, h, hin]

theorem turn_drain_of_not_quiescent {s : State} (h : s.block.quiescent = false) (rest : Program) :
    s.turn rest .drain =
      .cycle (.ok (s.drivePins (quietPorts s.cycle false true) (.drain :: rest))) := by
  simp [State.turn, h]

theorem quiescent_eq_false_iff (b : Block) :
    b.quiescent = false ↔ b.v1 = true ∨ b.v2 = true ∨ b.v3 = true := by
  cases h1 : b.v1 <;> cases h2 : b.v2 <;> cases h3 : b.v3 <;>
    simp [Block.quiescent, Block.occ, h1, h2, h3]

@[simp] theorem advance_v2 (b : Block) (p : Ports) : (b.advance p).v2 = b.v1 := Option.isSome_map
@[simp] theorem advance_v3 (b : Block) (p : Ports) : (b.advance p).v3 = b.v2 := Option.isSome_map

/-! ### What holds between the cycles of a stream -/

/-- Since its reset edge the stream has had the pairs `done` accepted, their results are delivered or pending in
order, and the host, which was `h` at that edge, has received what was delivered and has `prog` still to run. -/
structure Streaming (h : HostSide) (done : List Pair) (prog : Program) (s : State) : Prop where
  accepted : s.accepted = done
  inOrder : s.delivered ++ s.block.pendingResults = done.map mixPair
  host : s.host = { h with prog := prog, results := h.results ++ s.delivered }

namespace Streaming

variable {h : HostSide} {done : List Pair} {prog rest : Program} {s : State}

theorem prog_eq (hs : Streaming h done prog s) : s.host.prog = prog := by rw [hs.host]

theorem ready_eq (hs : Streaming h done prog s) : s.host.ready = h.ready := by rw [hs.host]

/-- A cycle without a reset, whatever it drives, goes on with the stream. -/
theorem clock_drivePins (hs : Streaming h done prog s) {p : Ports} (hr : p.rst = false) :
    Streaming h (done ++ (s.block.acceptance p).toList) rest (s.drivePins p rest).clock where
  accepted := by
    rw [clock_accepted_of_no_rst hr]
    simp [hs.accepted]
  inOrder := by
    rw [clock_delivered_append_pending hr]
    simp [hs.inOrder]
  host := by
    rw [clock_delivered_of_no_rst hr]
    simp [HostSide.receive, hs.host]

/-- When nothing is left in the stages, every result has been delivered. -/
theorem delivered_of_empty (hs : Streaming h done prog s) (hb : s.block = Block.empty) :
    s.delivered = done.map mixPair := by
  simpa [hb] using hs.inOrder

end Streaming

/-- The reset edge starts a stream, from any state. -/
theorem step_reset {s : State} {rest : Program} (hp : s.host.prog = .reset :: rest) :
    ∃ t, step s = .next t.afterEdge ∧ Streaming s.host [] rest t := by
  refine ⟨_, step_of_turn_cycle hp (turn_reset s rest), ?_⟩
  rw [clock_of_rst rfl]
  exact ⟨rfl, rfl, by simp⟩

section
variable {h : HostSide} {done : List Pair} {rest : Program} {s : State}

/-- With READY at 1 the offer is accepted at its first edge, into `S1`. -/
theorem step_mix_of_streaming {p : Pair} (hready : h.ready = true)
    (hs : Streaming h done (Stmt.mixOf p.1 p.2 :: rest) s) :
    ∃ t, step s = .next t.afterEdge ∧ Streaming h (done ++ [p]) rest t ∧ t.block.v1 = true := by
  have hturn := turn_mixOf_of_ready (hs.ready_eq.trans hready) rest p.1 p.2
  have hen : s.block.en true = true := (en_eq_true_iff _ _).2 (.inr rfl)
  have hacc : s.block.acceptance (offerPorts (beatOf p.1 p.2) true) = some p := by
    rw [acceptance_of_en _ _ rfl hen]
    simp [offerPorts]
  refine ⟨_, step_of_turn_cycle hs.prog_eq hturn, ?streaming, ?full⟩
  case streaming =>
    have hnext := hs.clock_drivePins (p := offerPorts (beatOf p.1 p.2) true) (rest := rest) rfl
    rwa [hacc] at hnext
  case full =>
    rw [clock_block, drivePins_pins, drivePins_block, edge_of_en _ _ rfl hen]
    rfl

/-- A DRAIN cycle of a block that is not empty is one advance without an offer. -/
theorem step_drain_of_streaming (hs : Streaming h done (.drain :: rest) s)
    (hq : s.block.quiescent = false) :
    ∃ t p, step s = .next t.afterEdge ∧ Streaming h done (.drain :: rest) t ∧
      t.block = s.block.advance p ∧ p.inValid = false := by
  have hp : Drains (quietPorts s.cycle false true) := ⟨rfl, rfl, rfl⟩
  refine ⟨_, _, step_of_turn_cycle hs.prog_eq (turn_drain_of_not_quiescent hq rest), ?streaming,
    edge_of_drains s.block hp, hp.inValid⟩
  have hnext := hs.clock_drivePins (rest := .drain :: rest) hp.rst
  rw [acceptance_of_drains s.block hp] at hnext
  simpa using hnext

/-- One edge for each offer of a row of MIXes; the last pair is in `S1` at its end. -/
theorem after_mixes_of_streaming (hready : h.ready = true) (p : Pair) (ps : List Pair)
    (hs : Streaming h done (mixStatements (p :: ps) ++ rest) s) :
    ∃ t, (∀ n, 0 < n → s.after (n + (p :: ps).length) = t.after n) ∧
      Streaming h (done ++ p :: ps) rest t ∧ t.block.v1 = true := by
  induction ps generalizing p done s with
  | nil =>
    obtain ⟨t, hstep, ht, hfull⟩ := step_mix_of_streaming hready hs
    exact ⟨t, fun n hn => after_of_step_afterEdge hstep hn, ht, hfull⟩
  | cons q qs ih =>
    obtain ⟨u, hstep, hu, -⟩ := step_mix_of_streaming hready hs
    obtain ⟨t, hrun, ht, hfull⟩ := ih q hu
    refine ⟨t, fun n hn => ?run, ?streaming, hfull⟩
    case run =>
      calc s.after (n + (p :: q :: qs).length)
        _ = u.after (n + (q :: qs).length) := after_of_step_afterEdge hstep (Nat.add_pos_left hn _)
        _ = t.after n := hrun n hn
    case streaming => rwa [List.append_assoc] at ht

/-- With the newest pair in `S1`, three edges of the DRAIN empty the block, and then the host goes on. -/
theorem after_drain_of_streaming (hs : Streaming h done (.drain :: rest) s) (hfull : s.block.v1 = true) :
    ∃ t, s.after 3 = .next t.afterEdge ∧ Streaming h done (.drain :: rest) t ∧
      t.block = Block.empty := by
  obtain ⟨t, p, hstept, ht, hbt, hp⟩ :=
    step_drain_of_streaming hs ((quiescent_eq_false_iff _).2 (.inl hfull))
  have ht2 : t.block.v2 = true := by rw [hbt, advance_v2, hfull]
  obtain ⟨u, q, hstepu, hu, hbu, hq⟩ :=
    step_drain_of_streaming ht ((quiescent_eq_false_iff _).2 (.inr (.inl ht2)))
  have hu3 : u.block.v3 = true := by rw [hbu, advance_v3, ht2]
  obtain ⟨v, r, hstepv, hv, hbv, hr⟩ :=
    step_drain_of_streaming hu ((quiescent_eq_false_iff _).2 (.inr (.inr hu3)))
  refine ⟨v, ?run, hv, ?empty⟩
  case run =>
    calc s.after 3
      _ = t.after 2 := after_of_step_afterEdge hstept (by decide)
      _ = u.after 1 := after_of_step_afterEdge hstepu (by decide)
      _ = .next v.afterEdge := by rw [after_succ_of_next 0 hstepv, after_zero]
  case empty => rw [hbv, hbu, hbt, advance_thrice_of_no_offer s.block hp hq hr]

/-- The run of a whole stream, up to the edge that empties the block; the host then goes on. -/
theorem after_streamProgram {ps : List Pair} (hne : ps ≠ []) (hready : s.host.ready = true)
    (hprog : s.host.prog = streamProgram ps ++ rest) :
    ∃ t, s.after (ps.length + 4) = .next t.afterEdge ∧ Streaming s.host ps (.drain :: rest) t ∧
      t.block = Block.empty := by
  obtain ⟨p, ps, rfl⟩ := List.exists_cons_of_ne_nil hne
  have hreset : s.host.prog = .reset :: (mixStatements (p :: ps) ++ (.drain :: rest)) := by
    simp [hprog, streamProgram]
  obtain ⟨u, hstep, hu⟩ := step_reset hreset
  obtain ⟨v, hrun, hv, hfull⟩ := after_mixes_of_streaming hready p ps hu
  obtain ⟨t, hdrain, ht, hempty⟩ := after_drain_of_streaming hv hfull
  refine ⟨t, ?run, ht, hempty⟩
  calc s.after ((p :: ps).length + 4)
    _ = u.after ((p :: ps).length + 3) := after_of_step_afterEdge hstep (Nat.succ_pos _)
    _ = u.after (3 + (p :: ps).length) := by rw [Nat.add_comm]
    _ = v.after 3 := hrun 3 (by decide)
    _ = .next t.afterEdge := hdrain

end

/-- Settles O31: the block is empty at the end of the stream's run, so all its results have been delivered; what
the host then runs without a cycle changes none of it. -/
theorem streamOfOffersDeliversTheMixerOfEach : Obligations.StreamOfOffersDeliversTheMixerOfEach := by
  intro s ps rest hne hready hprog
  obtain ⟨t, hrun, ht, hempty⟩ := after_streamProgram hne hready hprog
  have hdel : t.delivered = ps.map mixPair := ht.delivered_of_empty hempty
  obtain ⟨rest', ready, names, hafter⟩ := afterEdge_eq t
  refine ⟨t.afterEdge, hrun, ?_⟩
  rw [hafter]
  exact ⟨hempty, ht.accepted, hdel, by simp [ht.host, hdel]⟩

end Sys2Proof.Proofs
end

section
/-! The transaction format IN64 (30_encoding.md R60-R65): decoding and encoding are inverse to each other on the 64
bits of a beat, and a row of bits of the opcode table decodes exactly when it makes a beat. -/

namespace Sys2Proof.Proofs

open Sys2Proof.Machine Sys2Proof.Laws

/-- The two fields are the whole beat (30_encoding.md R60). -/
theorem beatOf_fields (beat : DWord) : beatOf (messageField beat) (chainField beat) = beat := by
  have hlt := beat.isLt
  apply BitVec.eq_of_toNat_eq
  simp only [beatOf_toNat, messageField, chainField, BitVec.extractLsb'_toNat,
    Nat.shiftRight_eq_div_pow]
  omega

@[simp] theorem decodeBeat_encode (i : Instr) : decodeBeat (encode i) = i := by
  cases i with
  | mix m c => simp [decodeBeat, encode]

@[simp] theorem encode_decodeBeat (beat : DWord) : encode (decodeBeat beat) = beat :=
  beatOf_fields beat

theorem decodeBeat_eq_iff (beat : DWord) (i : Instr) : decodeBeat beat = i ↔ beat = encode i := by
  constructor
  · rintro rfl
    exact (encode_decodeBeat beat).symm
  · rintro rfl
    exact decodeBeat_encode i

/-! ### Rows of bits -/

theorem decodeBits_of_ok {nbits w : Nat} {beat : DWord} (h : beatOfBits nbits w = .ok beat) :
    decodeBits nbits w = .ok (decodeBeat beat) := by
  rw [decodeBits, h]

theorem decodeBits_of_error {nbits w : Nat} {e : DecodeError} (h : beatOfBits nbits w = .error e) :
    decodeBits nbits w = .error e := by
  rw [decodeBits, h]

theorem beatOfBits_of_ne {nbits : Nat} (h : nbits ≠ 64) (w : Nat) :
    beatOfBits nbits w = .error (.notABeatsLength nbits) := if_neg h

theorem decodeBits_of_ne {nbits : Nat} (h : nbits ≠ 64) (w : Nat) :
    decodeBits nbits w = .error (.notABeatsLength nbits) :=
  decodeBits_of_error (beatOfBits_of_ne h w)

theorem decodeBits_of_value {w : Nat} {i : Instr} (h : (encode i).toNat = w) :
    decodeBits 64 w = .ok i := by
  have hbeat : beatOfBits 64 w = .ok (encode i) := by simp [beatOfBits, ← h]
  rw [decodeBits_of_ok hbeat, decodeBeat_encode]

/-- Bits of the opcode table decode to an instruction exactly when they make its beat. -/
theorem decodeTableWord_eq_some_iff (nbits w : Nat) (i : Instr) :
    decodeTableWord nbits w = some i ↔ tableBeat nbits w = .ok (encode i) := by
  rw [decodeTableWord, tableBeat]
  cases h : beatOfBits (tableRowLength nbits) (w % 2 ^ nbits) with
  | error e => simp [decodeBits_of_error h]
  | ok beat => simp [decodeBits_of_ok h, decodeBeat_eq_iff]

/-- Up to 64 bits of the table make the beat of their number; the bits above them are 0. -/
theorem tableBeat_of_le {nbits : Nat} (h : nbits ≤ 64) (w : Nat) :
    tableBeat nbits w = .ok (BitVec.ofNat 64 (w % 2 ^ nbits)) := by
  rw [tableBeat, tableRowLength, max_eq_right h]
  rfl

theorem tableBeat_of_gt {nbits : Nat} (h : 64 < nbits) (w : Nat) :
    tableBeat nbits w = .error (.notABeatsLength nbits) := by
  rw [tableBeat, tableRowLength, max_eq_left h.le, beatOfBits_of_ne h.ne']

theorem decodeTableWord_of_le {nbits : Nat} (h : nbits ≤ 64) (w : Nat) :
    decodeTableWord nbits w = some (decodeBeat (BitVec.ofNat 64 (w % 2 ^ nbits))) := by
  rw [decodeTableWord_eq_some_iff, tableBeat_of_le h, encode_decodeBeat]

theorem decodeTableWord_of_gt {nbits : Nat} (h : 64 < nbits) (w : Nat) :
    decodeTableWord nbits w = none := by
  rw [Option.eq_none_iff_forall_ne_some]
  intro i hi
  rw [decodeTableWord_eq_some_iff, tableBeat_of_gt h] at hi
  cases hi

theorem decodeTableWord_of_value {w : Nat} {i : Instr} (h : (encode i).toNat = w) :
    decodeTableWord 64 w = some i := by
  have hlt : w < 2 ^ 64 := h ▸ (encode i).isLt
  rw [decodeTableWord_of_le le_rfl, Nat.mod_eq_of_lt hlt, ← h, BitVec.ofNat_toNat,
    BitVec.setWidth_eq, decodeBeat_encode]

theorem withFetchWord_of_beat {nbits w : Nat} {beat : DWord} (h : tableBeat nbits w = .ok beat)
    (s : State) : s.withFetchWord nbits w = s.withProg (.mix beat :: s.host.prog) := by
  rw [State.withFetchWord, h]

theorem withFetchWord_of_gt {nbits : Nat} (h : 64 < nbits) (w : Nat) (s : State) :
    s.withFetchWord nbits w = s := by
  rw [State.withFetchWord, tableBeat_of_gt h]

/-- Settles O1: the two fields take the whole beat apart and put it together again, so that every number below
2^64 is the value of a beat. -/
theorem beatDecodeAndEncodeAgree : Obligations.BeatDecodeAndEncodeAgree := by
  refine ⟨fun i => ⟨?wellFormed, decodeBeat_encode i⟩, encode_decodeBeat, BeatValue.mix,
    fun w hw => ?row⟩
  case wellFormed => cases i; rfl
  case row =>
    have hvalue : (encode (decodeBeat (BitVec.ofNat 64 w))).toNat = w := by
      rw [encode_decodeBeat, BitVec.toNat_ofNat, Nat.mod_eq_of_lt hw]
    exact ⟨_, decodeBits_of_value hvalue, decodeTableWord_of_value hvalue, hvalue⟩

/-- Settles O2: each number is the value of the beat of its MIX. -/
theorem writtenBeatsDecodeToTheirMix : Obligations.WrittenBeatsDecodeToTheirMix :=
  ⟨decodeTableWord_of_value (by decide), decodeTableWord_of_value (by decide),
    decodeTableWord_of_value (by decide), decodeTableWord_of_value (by decide),
    decodeTableWord_of_value (by decide)⟩

/-- Settles O48, by the beat that the bits make or do not make. -/
theorem rowsOfAnotherLengthAreNoBeats : Obligations.RowsOfAnotherLengthAreNoBeats := by
  refine ⟨fun nbits w h => decodeBits_of_ne h w, fun nbits w h => ?short,
    fun s nbits w h => ⟨decodeTableWord_of_gt h w, withFetchWord_of_gt h w s⟩⟩
  case short =>
    have hlt : w % 2 ^ nbits < 2 ^ 64 := calc
      w % 2 ^ nbits < 2 ^ nbits := Nat.mod_lt _ (Nat.two_pow_pos nbits)
      _ ≤ 2 ^ 64 := Nat.pow_le_pow_right (by decide) h
    rw [decodeTableWord_of_le h, decodeTableWord_of_le le_rfl, Nat.mod_eq_of_lt hlt]

end Sys2Proof.Proofs
end

section
/-! The assembly text of MIX (30_encoding.md R66): each operand is printed as 8 hexadecimal digits, which read back
as the operand, and the comma between them is the first one of the text. -/

namespace Sys2Proof.Proofs

open Sys2Proof.Machine

/-- Every digit that is printed is read back. -/
theorem hexDigitValue_hexDigit : ∀ d < 16, hexDigitValue (hexDigit d) = some d := by decide

/-- A printed digit is neither the letter of a leading `0x` or `0X` nor the comma between the operands. -/
theorem hexDigit_ne : ∀ d < 16, hexDigit d ≠ 'x' ∧ hexDigit d ≠ 'X' ∧ hexDigit d ≠ ',' := by decide

/-- A row of printed digits reads as its value in base 16. -/
theorem hexValue_map_hexDigit (ds : List Nat) (h : ∀ d ∈ ds, d < 16) (acc : Nat) :
    hexValue acc (ds.map hexDigit) = some (ds.foldl (fun a d => a * 16 + d) acc) := by
  induction ds generalizing acc with
  | nil => rfl
  | cons d ds ih =>
    obtain ⟨hd, htail⟩ := List.forall_mem_cons.1 h
    rw [List.map_cons, hexValue, hexDigitValue_hexDigit d hd]
    exact ih htail (acc * 16 + d)

/-- The digits of a word in base 16, most significant first. -/
def hexDigits (v : Word) : List Nat := [7, 6, 5, 4, 3, 2, 1, 0].map fun k => v.toNat / 16 ^ k % 16

theorem hex8_eq_map_hexDigit (v : Word) : hex8 v = (hexDigits v).map hexDigit := by
  rw [hexDigits, List.map_map]
  rfl

theorem lt_of_mem_hexDigits {v : Word} {d : Nat} (h : d ∈ hexDigits v) : d < 16 := by
  obtain ⟨k, -, rfl⟩ := List.mem_map.1 h
  exact Nat.mod_lt _ (by decide)

theorem foldl_hexDigits (v : Word) : (hexDigits v).foldl (fun a d => a * 16 + d) 0 = v.toNat := by
  have hlt := v.isLt
  simp only [hexDigits, List.map_cons, List.map_nil, List.foldl_cons, List.foldl_nil]
  omega

theorem hexValue_hex8 (v : Word) : hexValue 0 (hex8 v) = some v.toNat := by
  rw [hex8_eq_map_hexDigit, hexValue_map_hexDigit _ fun _ => lt_of_mem_hexDigits, foldl_hexDigits]

theorem parseDigits_of_hexValue {t : Text} {v : Word} (ht : t ≠ [])
    (h : hexValue 0 t = some v.toNat) : parseDigits t = some v := by
  obtain ⟨ch, rest, rfl⟩ := List.exists_cons_of_ne_nil ht
  simp only [parseDigits, h, if_pos v.isLt, BitVec.ofNat_toNat, BitVec.setWidth_eq]

/-- Only an `x` or `X` in the second place is skipped. -/
theorem dropHexPrefix_of_ne {a b : Char} (hx : b ≠ 'x') (hX : b ≠ 'X') (rest : Text) :
    dropHexPrefix (a :: b :: rest) = a :: b :: rest := by
  unfold dropHexPrefix
  split <;> simp_all

theorem dropHexPrefix_hex8 (v : Word) : dropHexPrefix (hex8 v) = hex8 v := by
  obtain ⟨hx, hX, -⟩ := hexDigit_ne (v.toNat / 16 ^ 6 % 16) (Nat.mod_lt _ (by decide))
  exact dropHexPrefix_of_ne hx hX _

theorem parseHex_hex8 (v : Word) : parseHex (hex8 v) = some v := by
  rw [parseHex, dropHexPrefix_hex8]
  exact parseDigits_of_hexValue (List.cons_ne_nil _ _) (hexValue_hex8 v)

theorem comma_not_mem_hex8 (v : Word) : ',' ∉ hex8 v := by
  rw [hex8_eq_map_hexDigit, List.mem_map]
  rintro ⟨d, hd, hcomma⟩
  obtain ⟨-, -, hne⟩ := hexDigit_ne d (lt_of_mem_hexDigits hd)
  exact hne hcomma

theorem splitComma_append {a : Text} (h : ',' ∉ a) (b : Text) :
    splitComma (a ++ ',' :: b) = some (a, b) := by
  induction a with
  | nil => simp [splitComma]
  | cons ch a ih =>
    obtain ⟨hne, htail⟩ := not_or.1 (mt List.mem_cons.2 h)
    simp [splitComma, Ne.symm hne, ih htail]

theorem asmOperands_append {a : Text} (h : ',' ∉ a) (b : Text) :
    asmOperands (a ++ [',', ' '] ++ b) = some (a, b) := by
  have hsplit : splitComma (a ++ [',', ' '] ++ b) = some (a, ' ' :: b) := by
    rw [List.append_assoc]
    exact splitComma_append h (' ' :: b)
  simp only [asmOperands, hsplit]

theorem parseAsm_of_operands {rest a b : Text} {m c : Word} (h : asmOperands rest = some (a, b))
    (hm : parseHex a = some m) (hc : parseHex b = some c) :
    parseAsm ('M' :: 'I' :: 'X' :: ' ' :: rest) = some (.mix m c) := by
  simp only [parseAsm, h, hm, hc]

/-- Settles O3: the first comma stands after the message's digits, and the digits of both operands read back. -/
theorem assemblyTextReadsBack : Obligations.AssemblyTextReadsBack := by
  intro i
  cases i with
  | mix m c =>
    exact parseAsm_of_operands (asmOperands_append (comma_not_mem_hex8 m) (hex8 c))
      (parseHex_hex8 m) (parseHex_hex8 c)

end Sys2Proof.Proofs
end

section
/-! The statements of a host program (30_encoding.md R67): what each does at the head of the program, in the cycle
it takes or, where it takes none, at the going on of the host. -/

namespace Sys2Proof.Proofs

open Sys2Proof.Machine Sys2Proof.Laws

theorem quiescent_of_occ_eq_zero {b : Block} (h : b.occ = 0) : b.quiescent = true := by
  simp [Block.quiescent, h]

theorem not_quiescent_of_occ_ne_zero {b : Block} (h : b.occ ≠ 0) : b.quiescent = false := by
  simp [Block.quiescent, h]

/-! ### Statements that take a cycle -/

theorem turn_mix (s : State) (rest : Program) (beat : DWord) :
    s.turn rest (.mix beat) = .cycle (.ok (s.drivePins (offerPorts beat s.host.ready)
      (if s.block.inReady false s.host.ready then rest else .mix beat :: rest))) := rfl

theorem turn_idle_succ (s : State) (rest : Program) (n : Nat) :
    s.turn rest (.idle (n + 1)) =
      .cycle (.ok (s.drivePins (quietPorts s.cycle false s.host.ready) (.idle n :: rest))) := rfl

theorem turn_raw (s : State) (rest : Program) (c : RawCycle) :
    s.turn rest (.raw c) = .cycle (s.driveRaw c rest) := rfl

theorem drive_of_turn_cycle {s d : State} {st : Stmt} {rest : Program}
    (hp : s.host.prog = st :: rest) (ht : s.turn rest st = .cycle (.ok d)) :
    State.drive s.host.prog s = .ok d := by
  rw [hp, State.drive, ht]

/-- After the last statement every cycle is one of free ports with the READY level. -/
theorem step_of_prog_nil {s : State} (hp : s.host.prog = []) :
    step s = .next (s.drivePins (freePorts s.cycle s.host.ready) []).clock.afterEdge := by
  rw [step_eq_clock, hp, State.drive]

theorem afterEdge_of_prog_nil {s : State} (hp : s.host.prog = []) : s.afterEdge = s := by
  rw [State.afterEdge, State.load, hp, State.proceed, ← hp, withProg_self]

/-! ### Statements that take no cycle -/

theorem turn_idle_zero (s : State) (rest : Program) : s.turn rest (.idle 0) = .instant s := rfl

theorem turn_ready (s : State) (rest : Program) (b : Bool) :
    s.turn rest (.ready b) = .instant (s.setReady b) := rfl

theorem turn_take (s : State) (rest : Program) (name : Text) :
    s.turn rest (.take name) = .instant (s.takeName name) := rfl

theorem turn_drain_of_quiescent {s : State} (h : s.block.quiescent = true) (rest : Program) :
    s.turn rest .drain = .instant s := if_pos h

section
variable {s t : State} {st : Stmt} {rest : Program}

theorem step_of_turn_instant (hp : s.host.prog = st :: rest) (ht : s.turn rest st = .instant t) :
    step s = step (t.withProg rest) := by
  have hd : State.drive s.host.prog s =
      State.drive (t.withProg rest).host.prog (t.withProg rest) := by
    rw [withProg_host, drive_withProg, hp, State.drive, ht]
  rw [step_eq_clock, step_eq_clock, hd]

theorem afterEdge_of_turn_instant (hp : s.host.prog = st :: rest)
    (ht : s.turn rest st = .instant t) : s.afterEdge = (t.withProg rest).afterEdge := by
  rw [State.afterEdge, State.afterEdge, State.load, State.load, withProg_host, proceed_withProg, hp,
    State.proceed, ht]

/-- A statement that takes no cycle leaves the next cycle and the going on what they are after it. -/
theorem step_and_afterEdge_of_turn_instant (hp : s.host.prog = st :: rest)
    (ht : s.turn rest st = .instant t) :
    step s = step (t.withProg rest) ∧ s.afterEdge = (t.withProg rest).afterEdge :=
  ⟨step_of_turn_instant hp ht, afterEdge_of_turn_instant hp ht⟩

end

/-- A row of TAKEs is run at once, to the end of the program. -/
theorem proceed_takes (names : List Text) (s : State) :
    State.proceed (names.map Stmt.take) s =
      { s with host := { s.host with prog := [], names := s.host.names ++ names } } := by
  induction names generalizing s with
  | nil => simp [State.proceed, State.withProg]
  | cons name names ih =>
    rw [List.map_cons, State.proceed, turn_take]
    simp [ih]

/-- Settles O30: each statement that takes the cycle drives the ports of its turn, and one that takes none leaves
the next cycle and the going on to what follows it. -/
theorem hostStatementsDriveTheirCycles : Obligations.HostStatementsDriveTheirCycles := by
  intro s rest
  refine ⟨fun hp => ?reset, fun m c hp => ?mix, fun n hp => ?idle, fun hp hocc => ?drain,
    fun hp => ?ended, fun hp => ?idleZero, fun hp hocc => ?drainEmpty, fun v hp => ?ready,
    fun name hp => ?take, fun n beat c hp => ?stays, step_load s⟩
  case reset => exact ⟨_, step_of_turn_cycle hp (turn_reset s rest), rfl, rfl, rfl, rfl, rfl⟩
  case mix =>
    refine ⟨_, step_of_turn_cycle hp (turn_mix s rest _), rfl, ?_, rfl⟩
    simp [offerPorts, encode]
  case idle => exact ⟨_, step_of_turn_cycle hp (turn_idle_succ s rest n), rfl, rfl, rfl, rfl, rfl⟩
  case drain =>
    have hq := not_quiescent_of_occ_ne_zero hocc
    refine ⟨_, step_of_turn_cycle hp (turn_drain_of_not_quiescent hq rest), rfl, rfl, rfl, rfl, ?_⟩
    rw [drivePins_host, ← hp]
  case ended =>
    refine ⟨_, step_of_prog_nil hp, rfl, rfl, ?_⟩
    rw [drivePins_host, ← hp]
  case idleZero => exact step_and_afterEdge_of_turn_instant hp (turn_idle_zero s rest)
  case drainEmpty =>
    have hq := quiescent_of_occ_eq_zero hocc
    exact step_and_afterEdge_of_turn_instant hp (turn_drain_of_quiescent hq rest)
  case ready => exact step_and_afterEdge_of_turn_instant hp (turn_ready s rest v)
  case take => exact step_and_afterEdge_of_turn_instant hp (turn_take s rest name)
  case stays =>
    rcases hp with hp | hp | hp | hp | ⟨hp, hocc⟩ | hp
    · exact afterEdge_of_prog_nil hp
    · exact afterEdge_of_cycle hp (turn_reset s rest)
    · exact afterEdge_of_cycle hp (turn_mix s rest beat)
    · exact afterEdge_of_cycle hp (turn_idle_succ s rest n)
    · exact afterEdge_of_cycle hp
        (turn_drain_of_not_quiescent (not_quiescent_of_occ_ne_zero hocc) rest)
    · exact afterEdge_of_cycle hp (turn_raw s rest c)

/-! ### A step and the beat it offers -/

theorem step_of_drive_ok {s t : State} (hd : State.drive s.host.prog s = .ok t) :
    step s = hostProceeds
      (if t.pins.inValid then exec (decodeBeat t.pins.beat) t else .next t.clock) := by
  rw [step, hd]

theorem step_of_offer {s t : State} (hd : State.drive s.host.prog s = .ok t)
    (hv : t.pins.inValid = true) : step s = hostProceeds (exec (decodeBeat t.pins.beat) t) := by
  rw [step_of_drive_ok hd, if_pos hv]

theorem step_of_no_offer {s t : State} (hd : State.drive s.host.prog s = .ok t)
    (hv : t.pins.inValid = false) : step s = hostProceeds (.next t.clock) := by
  rw [step_of_drive_ok hd, hv, if_neg Bool.false_ne_true]

theorem offerPorts_beatOf (m c : Word) (outReady : Bool) :
    offerPorts (beatOf m c) outReady =
      { rst := false, inValid := true, inM := m, inC := c, outReady := outReady } := by
  simp [offerPorts]

/-- A MIX at the head of the program drives its own two fields, and they are what is executed. -/
theorem step_of_mix {s : State} {rest : Program} {m c : Word}
    (hp : s.host.prog = .mix (beatOf m c) :: rest) :
    step s = hostProceeds (exec (.mix m c) (s.drivePins
      { rst := false, inValid := true, inM := m, inC := c, outReady := s.host.ready }
      (if s.block.inReady false s.host.ready then rest else .mix (beatOf m c) :: rest))) := by
  have hd := drive_of_turn_cycle hp (turn_mix s rest (beatOf m c))
  rw [offerPorts_beatOf] at hd
  have hdec : decodeBeat (beatOf m c) = .mix m c := decodeBeat_encode (.mix m c)
  rw [step_of_offer hd (by rw [drivePins_pins]), drivePins_pins, Ports.beat, hdec]

/-- Settles O4: the driven ports decide between the offered beat and the edge alone; a MIX at the head drives its
own fields. -/
theorem stepRunsTheOfferedBeat : Obligations.StepRunsTheOfferedBeat := by
  refine ⟨fun s t => step_of_offer, fun s t => step_of_no_offer,
    fun s m c beat rest hp hdec => ?head, fun t => ?goesOn, fun s nbits w i hdec => ?fetch⟩
  case head =>
    obtain rfl : beat = beatOf m c := (decodeBeat_eq_iff beat (.mix m c)).1 hdec
    exact step_of_mix hp
  case goesOn =>
    obtain ⟨rest, ready, names, hafter⟩ := afterEdge_eq t
    exact ⟨rest, ready, names, congrArg Host.Outcome.next hafter⟩
  case fetch =>
    exact withFetchWord_of_beat ((decodeTableWord_eq_some_iff nbits w i).1 hdec) s

end Sys2Proof.Proofs
end

section
/-! TAKE (30_encoding.md R67, 20_memory.md R53): the k-th name is bound to the k-th result received. -/

namespace Sys2Proof.Proofs

open Sys2Proof.Machine Sys2Proof.Laws

/-- Settles O21: the k-th binding holds the k-th deliver, which belongs to the k-th accepted pair. -/
theorem takeBindsTheKthResult : Obligations.TakeBindsTheKthResult := by
  intro s h hres k name r hk
  obtain ⟨hname, hresult⟩ := List.getElem?_zip_eq_some.1 hk
  rw [hres] at hresult
  obtain ⟨⟨m, c⟩, hpair, hr⟩ := accepted_of_delivered h hresult
  exact ⟨hname, m, c, hpair, hr⟩

/-- Once the block is empty the DRAIN has ended, and the TAKEs after it are run at once. -/
theorem afterEdge_of_drain_takes {s : State} {names : List Text}
    (hp : s.host.prog = .drain :: names.map Stmt.take) (hb : s.block = Block.empty) :
    s.afterEdge = { s with host := { s.host with prog := [], names := s.host.names ++ names } } := by
  have hq : s.block.quiescent = true := (quiescent_iff _).2 hb
  rw [afterEdge_of_turn_instant hp (turn_drain_of_quiescent hq _), State.afterEdge, State.load,
    withProg_host, proceed_withProg, proceed_takes]

/-- Settles O49: the stream's last edge empties the block, and the going on after it runs the TAKEs. -/
theorem takesAfterTheDrainBindAtItsLastEdge : Obligations.TakesAfterTheDrainBindAtItsLastEdge := by
  intro s ps names hne _ hready hnames hresults hprog
  obtain ⟨t, hrun, ht, hempty⟩ := after_streamProgram hne hready hprog
  have hdel : t.delivered = ps.map mixPair := ht.delivered_of_empty hempty
  refine ⟨t.afterEdge, hrun, ?_⟩
  rw [afterEdge_of_drain_takes ht.prog_eq hempty]
  refine ⟨hempty, rfl, ?bindings⟩
  case bindings => simp [HostSide.bindings, ht.host, hnames, hresults, hdel]

end Sys2Proof.Proofs
end

section
/-! IDLE and DRAIN (30_encoding.md R67): a statement of several cycles is a row of edges, after which the host goes
on with the rest of the program. -/

namespace Sys2Proof.Proofs

open Sys2Proof.Machine Sys2Proof.Laws

theorem clocks_withProg (s : State) (old : Program) (ps : List Ports) :
    (s.withProg old).clocks ps = (s.clocks ps).withProg old := by
  induction ps generalizing s with
  | nil => rfl
  | cons p ps ih => exact ih (State.clock { s with pins := p })

theorem clocks_block (s : State) (ps : List Ports) : (s.clocks ps).block = s.block.edges ps := by
  induction ps generalizing s with
  | nil => rfl
  | cons p ps ih => exact ih (State.clock { s with pins := p })

theorem afterEdge_block (s : State) : s.afterEdge.block = s.block := by
  obtain ⟨rest, ready, names, hafter⟩ := afterEdge_eq s
  rw [hafter]

/-- The next steps drive the cycles `ps`, one each, and then the host goes on with `rest` in the state that these
edges leave. -/
def RunsCycles (s : State) (rest : Program) (ps : List Ports) : Prop :=
  ∃ t, s.after ps.length = .next t ∧ t.afterEdge = ((s.clocks ps).withProg rest).afterEdge

namespace RunsCycles

variable {s : State} {rest : Program}

/-- A statement that has ended takes no further cycle. -/
theorem of_turn_instant {st : Stmt} (hp : s.host.prog = st :: rest)
    (ht : s.turn rest st = .instant s) : RunsCycles s rest [] :=
  ⟨s, after_zero s, afterEdge_of_turn_instant hp ht⟩

/-- A statement that takes a cycle and stays in the program as `old` goes on from the edge of that cycle. -/
theorem of_turn_cycle {st : Stmt} {old : Program} {p : Ports} {ps : List Ports}
    (hp : s.host.prog = st :: rest) (ht : s.turn rest st = .cycle (.ok (s.drivePins p old)))
    (h : RunsCycles (s.drivePins p old).clock rest ps) : RunsCycles s rest (p :: ps) := by
  have hstep := step_of_turn_cycle hp ht
  have hclocks : ((s.drivePins p old).clock.clocks ps).withProg rest =
      (s.clocks (p :: ps)).withProg rest := by
    have hclock : (s.drivePins p old).clock = (State.clock { s with pins := p }).withProg old := rfl
    rw [hclock, clocks_withProg, withProg_withProg, clocks_cons]
  obtain ⟨t, hrun, hafter⟩ := h
  rw [hclocks] at hafter
  cases ps with
  | nil =>
    cases hrun
    exact ⟨_, after_succ_of_next 0 hstep, (afterEdge_afterEdge _).trans hafter⟩
  | cons q qs =>
    exact ⟨t, (after_of_step_afterEdge hstep (Nat.succ_pos _)).trans hrun, hafter⟩

end RunsCycles

/-- One cycle of an IDLE for each of its count. -/
theorem runsCycles_idle {s : State} {rest : Program} {n : Nat} (hp : s.host.prog = .idle n :: rest) :
    ∃ ps : List Ports, ps.length = n ∧
      (∀ p ∈ ps, p.rst = false ∧ p.inValid = false ∧ p.outReady = s.host.ready) ∧
      RunsCycles s rest ps := by
  induction n generalizing s with
  | zero => exact ⟨[], rfl, by simp, .of_turn_instant hp (turn_idle_zero s rest)⟩
  | succ n ih =>
    obtain ⟨ps, hlen, hquiet, hrun⟩ :=
      ih (s := (s.drivePins (quietPorts s.cycle false s.host.ready) (.idle n :: rest)).clock) rfl
    exact ⟨_ :: ps, congrArg Nat.succ hlen, List.forall_mem_cons.2 ⟨⟨rfl, rfl, rfl⟩, hquiet⟩,
      .of_turn_cycle hp (turn_idle_succ s rest n) hrun⟩

/-- A DRAIN of an empty block has ended. -/
theorem runsCycles_nil_of_drain {s : State} {rest : Program} (hp : s.host.prog = .drain :: rest)
    (hocc : s.block.occ = 0) : RunsCycles s rest [] :=
  .of_turn_instant hp (turn_drain_of_quiescent (quiescent_of_occ_eq_zero hocc) rest)

/-- A DRAIN drives draining cycles while the block is not empty; `n` of them are enough where any `n` such edges
empty the block. -/
theorem runsCycles_drain {s : State} {rest : Program} {n : Nat} (hp : s.host.prog = .drain :: rest)
    (hn : ∀ ps : List Ports, ps.length = n → (∀ p ∈ ps, Drains p) → s.block.edges ps = Block.empty) :
    ∃ ps : List Ports, ps.length ≤ n ∧ (∀ p ∈ ps, Drains p) ∧
      (∀ k, k < ps.length → (s.block.edges (ps.take k)).occ ≠ 0) ∧
      (s.block.edges ps).occ = 0 ∧ RunsCycles s rest ps := by
  induction n generalizing s with
  | zero =>
    have hempty : s.block = Block.empty := hn [] rfl (by simp)
    have hocc : s.block.occ = 0 := by rw [hempty, occ_empty]
    exact ⟨[], le_rfl, by simp, by simp, hocc, runsCycles_nil_of_drain hp hocc⟩
  | succ n ih =>
    by_cases hocc : s.block.occ = 0
    · exact ⟨[], Nat.zero_le _, by simp, by simp, hocc, runsCycles_nil_of_drain hp hocc⟩
    · have hturn := turn_drain_of_not_quiescent (not_quiescent_of_occ_ne_zero hocc) rest
      have hdrains : Drains (quietPorts s.cycle false true) := ⟨rfl, rfl, rfl⟩
      obtain ⟨ps, hlen, hps, hbusy, hend, hrun⟩ :=
        ih (s := (s.drivePins (quietPorts s.cycle false true) (.drain :: rest)).clock) rfl
          fun ps hlen hps =>
            hn (_ :: ps) (congrArg Nat.succ hlen) (List.forall_mem_cons.2 ⟨hdrains, hps⟩)
      refine ⟨_ :: ps, Nat.succ_le_succ hlen, List.forall_mem_cons.2 ⟨hdrains, hps⟩, fun k hk => ?_,
        hend, .of_turn_cycle hp hturn hrun⟩
      cases k with
      | zero => exact hocc
      | succ k => exact hbusy k (Nat.lt_of_succ_lt_succ hk)

/-- Three draining edges empty every block (20_memory.md R55). -/
theorem edges_of_drains {b : Block} {ps : List Ports} (hlen : ps.length = 3)
    (h : ∀ p ∈ ps, Drains p) : b.edges ps = Block.empty := by
  obtain ⟨p, q, r, rfl⟩ := List.length_eq_three.1 hlen
  have hp : Drains p := h p (by simp)
  have hq : Drains q := h q (by simp)
  have hr : Drains r := h r (by simp)
  calc b.edges [p, q, r]
    _ = ((b.edge p).edge q).edge r := rfl
    _ = ((b.advance p).advance q).advance r := by
      rw [edge_of_drains _ hp, edge_of_drains _ hq, edge_of_drains _ hr]
    _ = Block.empty := advance_thrice_of_no_offer b hp.inValid hq.inValid hr.inValid

/-- Settles O50: an IDLE by induction on its count; a DRAIN by induction on the edges that are sure to empty the
block, of which three are enough. -/
theorem idleAndDrainTakeExactlyTheirCycles : Obligations.IdleAndDrainTakeExactlyTheirCycles := by
  refine fun s rest => ⟨fun n hp => ?idle, fun hp => ?drain⟩
  case idle =>
    obtain ⟨ps, hlen, hquiet, t, hrun, hafter⟩ := runsCycles_idle hp
    exact ⟨ps, t, hlen, hquiet, hlen ▸ hrun, hafter⟩
  case drain =>
    obtain ⟨ps, hlen, hdrains, hbusy, hend, t, hrun, hafter⟩ :=
      runsCycles_drain hp fun _ => edges_of_drains
    have hblock : t.block = s.block.edges ps := calc
      t.block = t.afterEdge.block := (afterEdge_block t).symm
      _ = ((s.clocks ps).withProg rest).afterEdge.block := by rw [hafter]
      _ = s.block.edges ps := by rw [afterEdge_block, withProg_block, clocks_block]
    refine ⟨ps, t, hlen, fun p hp => ?ports, hbusy, hrun, hblock ▸ hend, hafter⟩
    case ports =>
      obtain ⟨hr, hv, ho⟩ := hdrains p hp
      exact ⟨hr, hv, ho⟩

end Sys2Proof.Proofs
end

section
/-! The values of the Mixer's words (40_mix.md R80-R91): each of the three stages as a formula over the natural
numbers, and the Mixer as the middle of the square of the beat, from which its closed forms follow. -/

namespace Sys2Proof.Proofs

open Sys2Proof.Machine Sys2Proof.Laws

/-! ### The stages -/

/-- The product of two operands is exact: nothing wraps (40_mix.md R81). -/
theorem operand_mul_operand_toNat (a b : Word) :
    (operand a * operand b).toNat = a.toNat * b.toNat := by
  have hlt : (operand a).toNat * (operand b).toNat < 2 ^ 64 := by
    rw [operand_toNat, operand_toNat]
    exact BitVec.toNat_mul_toNat_lt
  rw [BitVec.toNat_mul_of_lt hlt, operand_toNat, operand_toNat]

theorem termW_toNat (c : Word) : (termW c).toNat = c.toNat ^ 2 := by
  rw [termW, operand_mul_operand_toNat, sq]

/-- The square of an operand fits in a double-word (40_mix.md R81). -/
theorem sq_toNat_lt (c : Word) : c.toNat ^ 2 < 2 ^ 64 :=
  termW_toNat c ▸ (termW c).isLt

theorem termX_toNat (m c : Word) : (termX m c).toNat = 2 * m.toNat * c.toNat % 2 ^ 64 := by
  rw [termX, BitVec.toNat_shiftLeft, operand_mul_operand_toNat, Nat.shiftLeft_eq, pow_one, mul_comm,
    mul_assoc]

theorem termY_toNat (m : Word) : (termY m).toNat = m.toNat ^ 2 := by
  rw [termY, operand_mul_operand_toNat, sq]

theorem mixAccumulate_toNat (t : Terms) : (mixAccumulate t).toNat =
    (t.w.toNat / 2 ^ 32 + t.x.toNat + t.y.toNat * 2 ^ 32) % 2 ^ 64 := by
  simp only [mixAccumulate, BitVec.toNat_add, BitVec.toNat_ushiftRight, BitVec.toNat_shiftLeft,
    Nat.shiftRight_eq_div_pow, Nat.shiftLeft_eq, Nat.mod_add_mod, Nat.add_mod_mod]

theorem mixExtract_eq_extractLsb' (z : DWord) : mixExtract z = z.extractLsb' 16 32 := rfl

theorem mixExtract_toNat (z : DWord) : (mixExtract z).toNat = z.toNat / 2 ^ 16 % 2 ^ 32 := by
  rw [mixExtract_eq_extractLsb', BitVec.extractLsb'_toNat, Nat.shiftRight_eq_div_pow]

/-- Settles O35: the two stages as their value lemmas give them. -/
theorem accumulateAndExtractHaveTheirValues : Obligations.AccumulateAndExtractHaveTheirValues :=
  ⟨mixAccumulate_toNat, fun z => ⟨mixExtract_toNat z, mixExtract_eq_extractLsb' z⟩⟩

/-- Settles O34: `2*m*c` stays below `2^65`, so `x` is it or, from `m*c = 2^63` on, it less `2^64`. -/
theorem crossTermsHaveTheirValues : Obligations.CrossTermsHaveTheirValues := by
  intro m c
  have hlt : m.toNat * c.toNat < 2 ^ 64 := BitVec.toNat_mul_toNat_lt
  refine ⟨termW_toNat c, termX_toNat m c, fun hsmall => ?exact, fun hlarge => ?wraps, termY_toNat m,
    rfl⟩
  case exact =>
    rw [termX_toNat, mul_assoc]
    omega
  case wraps =>
    rw [termX_toNat, mul_assoc]
    omega

/-! ### What the result depends on -/

/-- The result is a field of the low 48 bits of `z` (40_mix.md R90). -/
theorem mixExtract_toNat_eq_mod_div (z : DWord) :
    (mixExtract z).toNat = z.toNat % 2 ^ 48 / 2 ^ 16 := by
  rw [mixExtract_toNat]
  omega

/-- A 48-bit adder gives the low 48 bits of `z` (40_mix.md R90). -/
theorem mixAccumulate_toNat_mod (t : Terms) : (mixAccumulate t).toNat % 2 ^ 48 =
    ((t.w >>> 32).toNat % 2 ^ 48 + t.x.toNat % 2 ^ 48 + t.y.toNat % 2 ^ 16 * 2 ^ 32) % 2 ^ 48 := by
  rw [mixAccumulate_toNat, BitVec.toNat_ushiftRight, Nat.shiftRight_eq_div_pow]
  omega

theorem mixExtract_congr {z z' : DWord} (h : z.toNat % 2 ^ 48 = z'.toNat % 2 ^ 48) :
    mixExtract z = mixExtract z' := by
  apply BitVec.eq_of_toNat_eq
  rw [mixExtract_toNat_eq_mod_div, mixExtract_toNat_eq_mod_div, h]

/-- Settles O37: triples that agree on the bits that count have sums that agree on the low 48 bits. -/
theorem resultDependsOnTheLow48BitsOfZ : Obligations.ResultDependsOnTheLow48BitsOfZ := by
  refine ⟨fun z z' => mixExtract_congr, fun t t' hw hx hy => mixExtract_congr ?_⟩
  rw [mixAccumulate_toNat_mod, mixAccumulate_toNat_mod, hw, hx, hy]

/-! ### The 128-bit view -/

/-- The square of the beat fits in 128 bits, so it is exact (40_mix.md R86). -/
theorem beatSquare_toNat (m c : Word) :
    (beatSquare m c).toNat = (m.toNat * 2 ^ 32 + c.toNat) ^ 2 := by
  have hzext : (zext128 (beatOf m c)).toNat = (beatOf m c).toNat :=
    BitVec.toNat_setWidth_of_le (by decide)
  have hlt : (zext128 (beatOf m c)).toNat * (zext128 (beatOf m c)).toNat < 2 ^ 128 := by
    rw [hzext]
    exact BitVec.toNat_mul_toNat_lt
  rw [beatSquare, BitVec.toNat_mul_of_lt hlt, hzext, beatOf_toNat, sq]

/-- The square of the beat as the sum of the terms at their places: `y` at bit 64, `2*m*c` at bit 32 and `w` at
bit 0. -/
theorem beatSquare_toNat_eq_terms (m c : Word) : (beatSquare m c).toNat =
    (m.toNat ^ 2 * 2 ^ 32 + 2 * m.toNat * c.toNat) * 2 ^ 32 + c.toNat ^ 2 := by
  rw [beatSquare_toNat]
  ring

theorem mixAccumulate_mixTerms_eq (m c : Word) :
    mixAccumulate (mixTerms m c) = (beatSquare m c).extractLsb' 32 64 := by
  apply BitVec.eq_of_toNat_eq
  rw [mixAccumulate_toNat, BitVec.extractLsb'_toNat, Nat.shiftRight_eq_div_pow,
    beatSquare_toNat_eq_terms]
  simp only [mixTerms, termW_toNat, termX_toNat, termY_toNat]
  omega

/-- A field of a field is a field of the whole. -/
theorem extractLsb'_extractLsb' {w : Nat} (q : BitVec w) (start : Nat) {len start' len' : Nat}
    (h : start' + len' ≤ len) :
    (q.extractLsb' start len).extractLsb' start' len' = q.extractLsb' (start + start') len' := by
  ext i hi
  have hlt : start' + i < len := by omega
  simp [BitVec.getElem_extractLsb', hlt, Nat.add_assoc]

theorem mixer_eq_extractLsb' (m c : Word) : mixer m c = (beatSquare m c).extractLsb' 48 32 := by
  rw [← mixer_eq, mixAccumulate_mixTerms_eq, mixExtract_eq_extractLsb',
    extractLsb'_extractLsb' _ _ (by decide)]

theorem mixer_toNat (m c : Word) :
    (mixer m c).toNat = (m.toNat * 2 ^ 32 + c.toNat) ^ 2 / 2 ^ 48 % 2 ^ 32 := by
  rw [mixer_eq_extractLsb', BitVec.extractLsb'_toNat, Nat.shiftRight_eq_div_pow, beatSquare_toNat]

theorem laneZ2_append_laneZ1 (q : QWord) : laneZ2 q ++ laneZ1 q = q.extractLsb' 32 64 :=
  BitVec.extractLsb'_append_extractLsb'_eq_extractLsb' rfl

theorem laneZ2_low_append_laneZ1_high (q : QWord) :
    (laneZ2 q).extractLsb' 0 16 ++ (laneZ1 q).extractLsb' 16 16 = q.extractLsb' 48 32 := by
  rw [laneZ2, laneZ1, extractLsb'_extractLsb' q 64 (by decide), extractLsb'_extractLsb' q 32 (by decide)]
  exact BitVec.extractLsb'_append_extractLsb'_eq_extractLsb' rfl

theorem laneZ0_beatSquare (m c : Word) :
    laneZ0 (beatSquare m c) = (termW c).extractLsb' 0 32 := by
  apply BitVec.eq_of_toNat_eq
  rw [laneZ0, BitVec.extractLsb'_toNat, BitVec.extractLsb'_toNat, Nat.shiftRight_zero,
    Nat.shiftRight_zero, beatSquare_toNat_eq_terms, termW_toNat, Nat.mul_add_mod_self_right]

/-- Settles O33: the accumulated word is the square of the beat without its lowest lane; the result and the lanes
are fields of that. -/
theorem mixerIsTheMiddleOfThe128BitSquare : Obligations.MixerIsTheMiddleOfThe128BitSquare := by
  intro m c
  have hz := mixAccumulate_mixTerms_eq m c
  have hr := mixer_eq_extractLsb' m c
  exact ⟨beatOf_toNat m c, beatSquare_toNat m c, hz, hz.trans (laneZ2_append_laneZ1 _).symm, hr,
    hr.trans (laneZ2_low_append_laneZ1_high _).symm, laneZ0_beatSquare m c⟩

/-! ### A zero operand (40_mix.md R91) -/

theorem mixer_zero_right_toNat (m : Word) :
    (mixer m 0).toNat = m.toNat ^ 2 % 2 ^ 16 * 2 ^ 16 := by
  rw [mixer_toNat, BitVec.ofNat_eq_ofNat, BitVec.toNat_zero, Nat.add_zero, mul_pow]
  omega

theorem mixer_zero_left_toNat (c : Word) : (mixer 0 c).toNat = c.toNat ^ 2 / 2 ^ 48 := by
  have hlt := sq_toNat_lt c
  rw [mixer_toNat, BitVec.ofNat_eq_ofNat, BitVec.toNat_zero, Nat.zero_mul, Nat.zero_add]
  omega

theorem mixer_zero_left_toNat_lt (c : Word) : (mixer 0 c).toNat < 2 ^ 16 := by
  have hlt := sq_toNat_lt c
  rw [mixer_zero_left_toNat]
  omega

theorem mixer_zero_right_eq_zero_iff (m : Word) : mixer m 0 = 0 ↔ 0x100 ∣ m.toNat := calc
  mixer m 0 = 0
  _ ↔ m.toNat ^ 2 % 2 ^ 16 * 2 ^ 16 = 0 := by
    rw [← mixer_zero_right_toNat]
    exact BitVec.toNat_eq
  _ ↔ 0x100 ^ 2 ∣ m.toNat ^ 2 := by omega
  _ ↔ 0x100 ∣ m.toNat := Nat.pow_dvd_pow_iff (by decide)

theorem mixer_zero_left_eq_zero_iff (c : Word) : mixer 0 c = 0 ↔ c.toNat < 2 ^ 24 := calc
  mixer 0 c = 0
  _ ↔ c.toNat ^ 2 / 2 ^ 48 = 0 := by
    rw [← mixer_zero_left_toNat]
    exact BitVec.toNat_eq
  _ ↔ c.toNat ^ 2 < (2 ^ 24) ^ 2 := by omega
  _ ↔ c.toNat < 2 ^ 24 := Nat.pow_lt_pow_iff_left (by decide)

/-- Settles O36: with one operand zero the square of the beat is the square of the other operand at its place. -/
theorem mixerClosedFormsAtAZeroOperand : Obligations.MixerClosedFormsAtAZeroOperand := by
  refine ⟨fun m => ?chainZero, fun c => ?messageZero, ?bothZero⟩
  case chainZero => exact ⟨mixer_zero_right_toNat m, mixer_zero_right_eq_zero_iff m⟩
  case messageZero =>
    exact ⟨mixer_zero_left_toNat c, mixer_zero_left_toNat_lt c, mixer_zero_left_eq_zero_iff c⟩
  case bothZero => exact (mixer_zero_left_eq_zero_iff 0).2 (by decide)

end Sys2Proof.Proofs
end

section
/-! SEARCH (41_host_procedures.md R101-R106): its result over the whole domain, over the parts of a split, and what
the host emits from the results of its candidates. -/

namespace Sys2Proof.Proofs

open Sys2Proof.Machine Sys2Proof.Laws

/-! ### The matches -/

theorem mem_searchPart (candidates : List Word) (chain chainPrime i : Word) :
    i ∈ searchPart candidates chain chainPrime ↔ i ∈ candidates ∧ mixer i chain = chainPrime := by
  rw [searchPart, List.mem_filter, beq_iff_eq]

theorem mem_search (chain chainPrime i : Word) :
    i ∈ search chain chainPrime ↔ mixer i chain = chainPrime := by
  rw [search, mem_searchPart, and_iff_right (mem_searchDomain i)]

theorem search_ascending (chain chainPrime : Word) :
    (search chain chainPrime).Pairwise fun i j => i.toNat < j.toNat :=
  searchDomain_ascending.filter _

theorem search_nodup (chain chainPrime : Word) : (search chain chainPrime).Nodup :=
  searchDomain_nodup.filter _

theorem length_searchPairs (candidates : List Word) (chain : Word) :
    (searchPairs candidates chain).length = candidates.length := List.length_map _

/-- A candidate's pair stands among the evaluated ones as often as the candidate among the candidates. -/
theorem count_searchPairs (candidates : List Word) (chain i : Word) :
    (searchPairs candidates chain).count (i, chain) = candidates.count i :=
  List.count_map_of_injective candidates (fun j => (j, chain)) (Prod.mk_left_injective chain) i

/-- Settles O38: the result is what the filter keeps of the ascending domain, which holds every message once. -/
theorem searchFindsEveryPreimageInOrder : Obligations.SearchFindsEveryPreimageInOrder := by
  intro chain chainPrime
  refine ⟨mem_search chain chainPrime, search_ascending chain chainPrime, fun i => ?once, ?length⟩
  case once =>
    rw [count_searchPairs]
    exact List.count_eq_one_of_mem searchDomain_nodup (mem_searchDomain i)
  case length => rw [length_searchPairs, searchDomain_length]

/-- Settles O39: the message is a preimage of its own chain-prime. -/
theorem searchFindsTheMessageItStartedFrom : Obligations.SearchFindsTheMessageItStartedFrom :=
  fun msg chain => (mem_search chain (mixer msg chain) msg).2 rfl

/-- The parts' matches together are the matches of the parts together (41_host_procedures.md R104). -/
theorem flatten_searchParts (parts : List (List Word)) (chain chainPrime : Word) :
    (searchParts parts chain chainPrime).flatten = searchPart parts.flatten chain chainPrime :=
  List.filter_flatten.symm

theorem searchParts_perm {parts : List (List Word)} (h : IsPartition parts) (chain chainPrime : Word) :
    (searchParts parts chain chainPrime).flatten.Perm (search chain chainPrime) := by
  rw [flatten_searchParts]
  exact h.filter _

/-- Settles O40: a rearrangement of the result has its members, each as often. -/
theorem partitionedSearchEmitsTheSameMatches : Obligations.PartitionedSearchEmitsTheSameMatches := by
  intro parts chain chainPrime h
  have hperm := searchParts_perm h chain chainPrime
  exact ⟨hperm, hperm.nodup_iff.2 (search_nodup chain chainPrime),
    fun i => hperm.mem_iff.trans (mem_search chain chainPrime i)⟩

/-! ### What the host emits -/

/-- The `n` candidates from `k` on, ascending. -/
def candidatesFrom (k n : Nat) : List Word := (List.range' k n).map (BitVec.ofNat 32)

theorem candidatesFrom_succ (k n : Nat) :
    candidatesFrom k (n + 1) = BitVec.ofNat 32 k :: candidatesFrom (k + 1) n := rfl

theorem searchDomain_eq_candidatesFrom : searchDomain = candidatesFrom 0 Config.searchDomain := by
  rw [searchDomain, candidatesFrom, List.range_eq_range']

theorem length_searchDomain : searchDomain.length = Config.searchDomain := by
  rw [searchDomain_length, config_searchDomain_eq]

theorem searchPairs_cons (i : Word) (candidates : List Word) (chain : Word) :
    searchPairs (i :: candidates) chain = (i, chain) :: searchPairs candidates chain := rfl

theorem searchPart_cons (i : Word) (candidates : List Word) (chain chainPrime : Word) :
    searchPart (i :: candidates) chain chainPrime =
      if mixer i chain = chainPrime then i :: searchPart candidates chain chainPrime
      else searchPart candidates chain chainPrime := by
  simp only [searchPart, List.filter_cons, beq_iff_eq]

/-- Of consecutive candidates, a count that starts at the first emits exactly the matches
(41_host_procedures.md R103). -/
theorem emitMatches_candidatesFrom (chain chainPrime : Word) (k n : Nat) :
    emitMatches chainPrime k ((searchPairs (candidatesFrom k n) chain).map mixPair) =
      searchPart (candidatesFrom k n) chain chainPrime := by
  induction n generalizing k with
  | zero => rfl
  | succ n ih =>
    rw [candidatesFrom_succ, searchPairs_cons, List.map_cons, emitMatches, ih, searchPart_cons, mixPair_eq]

theorem emitMatches_eq_search (chain chainPrime : Word) :
    emitMatches chainPrime 0 ((searchPairs searchDomain chain).map mixPair) =
      search chain chainPrime := by
  rw [search, searchDomain_eq_candidatesFrom, emitMatches_candidatesFrom]

end Sys2Proof.Proofs
end

section
/-! AVALANCHE (41_host_procedures.md R107, R108): the places of its rows, and both host procedures run on the
block. -/

namespace Sys2Proof.Proofs

open Sys2Proof.Machine Sys2Proof.Laws

/-! ### The rows -/

theorem length_bitsDown : bitsDown.length = 32 := by
  rw [bitsDown, List.length_reverse, List.length_range]

theorem bitsDown_getElem? {b : Nat} (h : b < 32) : bitsDown[31 - b]? = some b := by
  have hlt : 31 - b < (List.range 32).length := by
    rw [List.length_range]
    omega
  have hplace : (List.range 32).length - 1 - (31 - b) = b := by
    rw [List.length_range]
    omega
  rw [bitsDown, List.getElem?_reverse hlt, hplace, List.getElem?_range h]

theorem length_flipPairs (m c : Word) : (flipPairs m c).length = 64 := by
  simp [flipPairs, length_bitsDown]

theorem flipPairs_getElem?_message (m c : Word) {b : Nat} (h : b < 32) :
    (flipPairs m c)[31 - b]? = some (flipBit m b, c) := by
  have hlt : 31 - b < (bitsDown.map fun b => (flipBit m b, c)).length := by
    rw [List.length_map, length_bitsDown]
    omega
  rw [flipPairs, List.getElem?_append_left hlt, List.getElem?_map, bitsDown_getElem? h, Option.map_some]

theorem flipPairs_getElem?_chain (m c : Word) {b : Nat} (h : b < 32) :
    (flipPairs m c)[63 - b]? = some (m, flipBit c b) := by
  have hlen : (bitsDown.map fun b => (flipBit m b, c)).length = 32 := by
    rw [List.length_map, length_bitsDown]
  have hplace : 63 - b - 32 = 31 - b := by omega
  rw [flipPairs, List.getElem?_append_right (by omega), hlen, hplace, List.getElem?_map,
    bitsDown_getElem? h, Option.map_some]

theorem length_avalanche (m c : Word) : (avalanche m c).length = 65 := by
  rw [avalanche, List.length_cons, List.length_map, length_flipPairs]

theorem length_avalanchePairs (m c : Word) : (avalanchePairs m c).length = 65 := by
  rw [avalanchePairs, List.length_cons, length_flipPairs]

/-- The rows after the baseline are those of the flip pairs, one place on. -/
theorem avalanche_getElem?_succ {m c : Word} {k : Nat} {p : Pair} (h : (flipPairs m c)[k]? = some p) :
    (avalanche m c)[k + 1]? = some (flipRow (mixer m c) p (mixer p.1 p.2)) := by
  rw [avalanche, List.getElem?_cons_succ, List.getElem?_map, h, Option.map_some]

/-- The table's pairs are those that the block is offered, in the same order. -/
theorem map_pair_avalanche (m c : Word) :
    (avalanche m c).map (fun row => (row.message, row.chain)) = avalanchePairs m c := by
  rw [avalanche, List.map_cons, List.map_map, avalanchePairs]
  exact congrArg _ (List.map_id _)

theorem avalancheProgram_eq (m c : Word) : avalancheProgram m c =
    .reset :: ((avalanche m c).map (fun row => Stmt.mixOf row.message row.chain) ++ [.drain]) := by
  rw [avalancheProgram, streamProgram, mixStatements, ← map_pair_avalanche, List.map_map]
  rfl

/-- Settles O42: row `k + 1` belongs to flip pair `k`, and the bits go down from 31 in either half. -/
theorem avalancheHasItsRowsInOrder : Obligations.AvalancheHasItsRowsInOrder := by
  intro m c
  refine ⟨length_avalanche m c, rfl, fun b hb => ⟨?message, ?chain⟩, avalancheProgram_eq m c⟩
  case message =>
    have hplace : 32 - b = 31 - b + 1 := by omega
    rw [hplace]
    exact avalanche_getElem?_succ (flipPairs_getElem?_message m c hb)
  case chain =>
    have hplace : 64 - b = 63 - b + 1 := by omega
    rw [hplace]
    exact avalanche_getElem?_succ (flipPairs_getElem?_chain m c hb)

/-- From the Mixer's values of its pairs the host makes the rows of the table. -/
theorem avalancheRowsOf_eq_avalanche (m c : Word) :
    avalancheRowsOf m c ((avalanchePairs m c).map mixPair) = avalanche m c := by
  rw [avalanchePairs, List.map_cons, avalancheRowsOf, List.zipWith_map_right, List.zipWith_self]
  rfl

/-! ### On the block -/

theorem searchPairs_searchDomain_ne_nil (chain : Word) : searchPairs searchDomain chain ≠ [] :=
  List.ne_nil_of_mem (List.mem_map_of_mem (mem_searchDomain 0))

/-- Settles O41: both programs are streams, and a stream delivers the Mixer's value of each of its pairs in
order. -/
theorem blockResultsGiveTheHostProcedures : Obligations.BlockResultsGiveTheHostProcedures := by
  refine ⟨emitMatches_eq_search, avalancheRowsOf_eq_avalanche,
    fun s chain chainPrime rest hready hprog => ?search, fun s m c rest hready hprog => ?avalanche⟩
  case search =>
    obtain ⟨t, hrun, hempty, -, hdel, hres⟩ := streamOfOffersDeliversTheMixerOfEach s _ rest
      (searchPairs_searchDomain_ne_nil chain) hready hprog
    rw [length_searchPairs, length_searchDomain] at hrun
    exact ⟨t, hrun, hempty, by rw [hdel, emitMatches_eq_search], by rw [hres, hdel]⟩
  case avalanche =>
    obtain ⟨t, hrun, hempty, -, hdel, hres⟩ := streamOfOffersDeliversTheMixerOfEach s (avalanchePairs m c)
      rest (List.cons_ne_nil _ _) hready hprog
    rw [length_avalanchePairs] at hrun
    exact ⟨t, hrun, hempty, by rw [hdel, avalancheRowsOf_eq_avalanche], by rw [hres, hdel]⟩

end Sys2Proof.Proofs
end

section
/-! Hexadecimal texts (41_host_procedures.md R109, R113): which digits are printed, and which texts are read. -/

namespace Sys2Proof.Proofs

open Sys2Proof.Machine

/-! ### Printed digits -/

theorem digits_getElem?_eq_hexDigit : ∀ d < 16,
    ['0', '1', '2', '3', '4', '5', '6', '7', '8', '9', 'a', 'b', 'c', 'd', 'e', 'f'][d]? =
      some (hexDigit d) := by decide

theorem hexWeights_getElem? : ∀ k < 8, [7, 6, 5, 4, 3, 2, 1, 0][k]? = some (7 - k) := by decide

theorem hex8_getElem? (v : Word) {k : Nat} (h : k < 8) :
    (hex8 v)[k]? = some (hexDigit (v.toNat / 16 ^ (7 - k) % 16)) := by
  rw [hex8, List.getElem?_map, hexWeights_getElem? k h, Option.map_some]

/-- Settles O43, by the place of each digit and the reading back of the printed text. -/
theorem valuesPrintAsEightLowercaseHexDigits : Obligations.ValuesPrintAsEightLowercaseHexDigits :=
  fun v => ⟨rfl,
    fun _ hk => ⟨_, hex8_getElem? v hk, digits_getElem?_eq_hexDigit _ (Nat.mod_lt _ (by decide))⟩,
    parseHex_hex8 v⟩

/-! ### Read digits -/

/-- The character codes of the digits: `0-9` from 48 on, `a-f` from 97 on, `A-F` from 65 on. -/
theorem hexDigitValue_eq_some_iff (ch : Char) (d : Nat) : hexDigitValue ch = some d ↔
    d < 10 ∧ ch.toNat = 48 + d ∨
    10 ≤ d ∧ d < 16 ∧ ch.toNat = 87 + d ∨
    10 ≤ d ∧ d < 16 ∧ ch.toNat = 55 + d := by
  simp only [hexDigitValue]
  split_ifs <;> simp only [Option.some.injEq, false_iff] <;> omega

/-- The place of a character in a row of 16 digits whose codes are 48 on for the first ten and `letters + 10` on
for the others. -/
theorem getElem?_eq_some_iff_of_codes {table : List Char} {letters : Nat}
    (h : table.map Char.toNat = List.range' 48 10 ++ List.range' (letters + 10) 6) (ch : Char) (d : Nat) :
    table[d]? = some ch ↔
      d < 10 ∧ ch.toNat = 48 + d ∨ 10 ≤ d ∧ d < 16 ∧ ch.toNat = letters + d := by
  have hcode : table[d]? = some ch ↔ (table.map Char.toNat)[d]? = some ch.toNat := by
    rw [List.getElem?_map, ← Option.map_some]
    exact (Option.map_injective fun _ _ => Char.toNat_inj.1).eq_iff.symm
  rw [hcode, h, List.getElem?_append, List.length_range']
  split_ifs <;>
    simp only [List.getElem?_eq_some_iff, List.getElem_range', List.length_range', exists_prop, one_mul] <;>
    omega

theorem lowercaseDigits_getElem?_eq_some_iff (ch : Char) (d : Nat) :
    ['0', '1', '2', '3', '4', '5', '6', '7', '8', '9', 'a', 'b', 'c', 'd', 'e', 'f'][d]? = some ch ↔
      d < 10 ∧ ch.toNat = 48 + d ∨ 10 ≤ d ∧ d < 16 ∧ ch.toNat = 87 + d :=
  getElem?_eq_some_iff_of_codes (by decide) ch d

theorem uppercaseDigits_getElem?_eq_some_iff (ch : Char) (d : Nat) :
    ['0', '1', '2', '3', '4', '5', '6', '7', '8', '9', 'A', 'B', 'C', 'D', 'E', 'F'][d]? = some ch ↔
      d < 10 ∧ ch.toNat = 48 + d ∨ 10 ≤ d ∧ d < 16 ∧ ch.toNat = 55 + d :=
  getElem?_eq_some_iff_of_codes (by decide) ch d

/-! ### Read texts -/

/-- A row of characters has a value exactly when every one of them is a digit, and then it is the value of the
digits in base 16. -/
theorem hexValue_eq_some_iff (t : Text) (acc n : Nat) : hexValue acc t = some n ↔
    ∃ ds : List Nat, t.map hexDigitValue = ds.map some ∧
      n = ds.foldl (fun acc d => acc * 16 + d) acc := by
  induction t generalizing acc with
  | nil =>
    refine ⟨fun h => ⟨[], rfl, (Option.some.inj h).symm⟩, ?_⟩
    rintro ⟨ds, hds, rfl⟩
    obtain rfl : ds = [] := List.map_eq_nil_iff.1 hds.symm
    rfl
  | cons ch t ih =>
    constructor
    · intro h
      rw [hexValue] at h
      split at h
      next d hd =>
        obtain ⟨ds, hds, rfl⟩ := (ih _).1 h
        exact ⟨d :: ds, by rw [List.map_cons, hd, hds, List.map_cons], rfl⟩
      next => cases h
    · rintro ⟨ds, hds, rfl⟩
      obtain ⟨d, ds, rfl, hd, htail⟩ := List.map_eq_cons_iff.1 hds.symm
      rw [hexValue, ← hd]
      exact (ih _).2 ⟨ds, htail.symm, rfl⟩

theorem parseDigits_eq_some_iff (t : Text) (v : Word) :
    parseDigits t = some v ↔ t ≠ [] ∧ hexValue 0 t = some v.toNat := by
  refine ⟨fun h => ?value, fun ⟨ht, h⟩ => parseDigits_of_hexValue ht h⟩
  case value =>
    cases t with
    | nil => cases h
    | cons ch t =>
      refine ⟨List.cons_ne_nil ch t, ?_⟩
      rw [parseDigits] at h
      split at h
      next n hn =>
        rw [Option.ite_none_right_eq_some] at h
        obtain ⟨hlt, hv⟩ := h
        cases hv
        rw [hn, BitVec.toNat_ofNat, Nat.mod_eq_of_lt hlt]
      next => cases h

/-- What is skipped is a leading `0x` or `0X`, or nothing. -/
theorem dropHexPrefix_cases (t : Text) :
    t = dropHexPrefix t ∨ t = '0' :: 'x' :: dropHexPrefix t ∨ t = '0' :: 'X' :: dropHexPrefix t := by
  unfold dropHexPrefix
  split
  · exact .inr (.inl rfl)
  · exact .inr (.inr rfl)
  · exact .inl rfl

/-- In a row of digits nothing is skipped, since `x` and `X` are no digits. -/
theorem dropHexPrefix_of_hexValue {t : Text} {acc n : Nat} (h : hexValue acc t = some n) :
    dropHexPrefix t = t := by
  unfold dropHexPrefix
  split
  · cases h
  · cases h
  · rfl

/-- A text is parsable exactly when it is digits of a word's value, with or without a leading `0x` or `0X`. -/
theorem parseHex_eq_some_iff (t : Text) (v : Word) : parseHex t = some v ↔
    ∃ digits : Text, (t = digits ∨ t = '0' :: 'x' :: digits ∨ t = '0' :: 'X' :: digits) ∧
      digits ≠ [] ∧ hexValue 0 digits = some v.toNat := by
  rw [parseHex, parseDigits_eq_some_iff]
  refine ⟨fun h => ⟨_, dropHexPrefix_cases t, h⟩, ?_⟩
  rintro ⟨digits, rfl | rfl | rfl, hne, hvalue⟩
  · rw [dropHexPrefix_of_hexValue hvalue]
    exact ⟨hne, hvalue⟩
  · exact ⟨hne, hvalue⟩
  · exact ⟨hne, hvalue⟩

/-- Settles O44: the digits by their character codes, the texts by what is skipped and then digit by digit. -/
theorem parsableArgumentsAreExactlyTheHexTexts : Obligations.ParsableArgumentsAreExactlyTheHexTexts := by
  refine ⟨fun ch d => ?digit, fun t v => ?text⟩
  case digit =>
    rw [hexDigitValue_eq_some_iff, lowercaseDigits_getElem?_eq_some_iff,
      uppercaseDigits_getElem?_eq_some_iff]
    tauto
  case text => simp only [parseHex_eq_some_iff, hexValue_eq_some_iff, exists_and_left]

end Sys2Proof.Proofs
end

section
/-! The commands (41_host_procedures.md R110-R112): two parsable arguments run the procedure, and every other row of
arguments is a `UsageError`. -/

namespace Sys2Proof.Proofs

open Sys2Proof.Machine

theorem usageExitStatus_ne_zero : Config.usageExitStatus ≠ 0 := by
  rw [Config.usageExitStatus]
  split_ifs <;> omega

/-! ### What a row of arguments leads to -/

section
variable {a b : Text} {x y : Word}

theorem runCommand_search (ha : parseHex a = some x) (hb : parseHex b = some y) :
    runCommand .search [a, b] = runSearch x y := by
  simp only [runCommand, ha, hb]

theorem runCommand_avalanche (ha : parseHex a = some x) (hb : parseHex b = some y) :
    runCommand .avalanche [a, b] = runAvalanche x y := by
  simp only [runCommand, ha, hb]

end

/-- The arguments are two and both parsable. -/
def ParsablePair (args : List Text) : Prop :=
  ∃ a b x y, args = [a, b] ∧ parseHex a = some x ∧ parseHex b = some y

theorem parsablePair_iff (args : List Text) :
    ParsablePair args ↔ ¬ (args.length ≠ 2 ∨ ∃ a ∈ args, parseHex a = none) := by
  constructor
  · rintro ⟨a, b, x, y, rfl, ha, hb⟩
    simp [ha, hb]
  · intro h
    obtain ⟨hlen, hall⟩ := not_or.1 h
    obtain ⟨a, b, rfl⟩ := List.length_eq_two.1 (not_not.1 hlen)
    have value_of_mem {t : Text} (ht : t ∈ [a, b]) : ∃ v, parseHex t = some v :=
      Option.ne_none_iff_exists'.1 fun hnone => hall ⟨t, ht, hnone⟩
    obtain ⟨x, ha⟩ := value_of_mem (t := a) (by simp)
    obtain ⟨y, hb⟩ := value_of_mem (t := b) (by simp)
    exact ⟨a, b, x, y, rfl, ha, hb⟩

theorem runCommand_of_not_parsablePair {cmd : Command} {args : List Text} (h : ¬ ParsablePair args) :
    runCommand cmd args = usageError cmd args := by
  unfold runCommand
  split
  · split
    next x y ha hb => exact absurd ⟨_, _, x, y, rfl, ha, hb⟩ h
    next => rfl
  · rfl

/-- A command that runs writes nothing to standard error and exits with 0. -/
theorem runCommand_of_parsablePair {cmd : Command} {args : List Text} (h : ParsablePair args) :
    (runCommand cmd args).stderr = [] ∧ (runCommand cmd args).status = 0 := by
  obtain ⟨a, b, x, y, rfl, ha, hb⟩ := h
  cases cmd with
  | search =>
    rw [runCommand_search ha hb]
    exact ⟨rfl, rfl⟩
  | avalanche =>
    rw [runCommand_avalanche ha hb]
    exact ⟨rfl, rfl⟩

/-- Settles O45, by whether the arguments are two and both parsable. -/
theorem usageErrorIsTheOnlyCommandError : Obligations.UsageErrorIsTheOnlyCommandError := by
  intro cmd args
  rw [← parsablePair_iff]
  refine ⟨fun h => ?usage, runCommand_of_parsablePair⟩
  case usage =>
    rw [runCommand_of_not_parsablePair fun hp => (parsablePair_iff args).1 hp h]
    exact ⟨rfl, rfl, usageExitStatus_ne_zero, rfl⟩

/-- Settles O46: on parsable arguments each command is its procedure, whose output it prints. -/
theorem commandsPrintTheirResults : Obligations.CommandsPrintTheirResults := by
  intro a b x y ha hb
  rw [runCommand_search ha hb, runCommand_avalanche ha hb]
  exact ⟨rfl, rfl, rfl, rfl⟩

end Sys2Proof.Proofs
end

section
/-! The host's two errors (60_exceptions.md R132, 70_reset_and_hazards.md R147, R149): a raw cycle alone can be
refused, and a step is refused exactly where it reaches such a cycle. -/

namespace Sys2Proof.Proofs

open Sys2Proof.Machine Sys2Proof.Laws

/-! ### What a raw cycle does -/

/-- A host that may read `out_r` finds a value there. -/
theorem exists_outR_of_outValid {b : Block} {rst : Bool} (h : b.outValid rst = true) :
    ∃ r, b.outR rst = some r := by
  obtain ⟨-, h3⟩ := (outValid_eq_true_iff b rst).1 h
  rw [outR_of_outValid b h]
  exact Option.ne_none_iff_exists'.1 h3

theorem readOutR_of_outR {s : State} {rst : Bool} {r : Word} (h : s.block.outR rst = some r) :
    s.readOutR rst = .ok (s.see r) := by
  rw [State.readOutR, h]

theorem readOutR_of_not_outValid {s : State} {rst : Bool} (h : s.block.outValid rst = false) :
    s.readOutR rst = .error .outRWhileNotValid := by
  rw [State.readOutR, outR_of_not_outValid s.block h]

/-- Only the combinational loop leaves `out_ready` without a level. -/
theorem outReadyLevel_of_no_loop {c : RawCycle} (h : c.outReady ≠ .sameAsInReady) (b : Block) :
    ∃ v, RawCycle.outReadyLevel c b = .ok v := by
  unfold RawCycle.outReadyLevel
  split
  next v _ => exact ⟨v, rfl⟩
  next => exact ⟨b.outValid c.rst, rfl⟩
  next hloop => exact absurd hloop h

section
variable {s : State} {c : RawCycle}

theorem driveRaw_of_loop (h : c.outReady = .sameAsInReady) (rest : Program) :
    s.driveRaw c rest = .error .combinationalLoop := by
  simp [State.driveRaw, RawCycle.outReadyLevel, h]

theorem driveRaw_of_invalid_read (hl : c.outReady ≠ .sameAsInReady) (hread : c.readsOut = true)
    (hv : s.block.outValid c.rst = false) (rest : Program) :
    s.driveRaw c rest = .error .outRWhileNotValid := by
  obtain ⟨v, hlevel⟩ := outReadyLevel_of_no_loop hl s.block
  simp [State.driveRaw, hlevel, hread, readOutR_of_not_outValid hv]

theorem driveRaw_of_read {r : Word} (hl : c.outReady ≠ .sameAsInReady) (hread : c.readsOut = true)
    (hr : s.block.outR c.rst = some r) (rest : Program) :
    ∃ p, s.driveRaw c rest = .ok ((s.see r).drivePins p rest) := by
  obtain ⟨v, hlevel⟩ := outReadyLevel_of_no_loop hl s.block
  exact ⟨RawCycle.ports c v, by simp [State.driveRaw, hlevel, hread, readOutR_of_outR hr]⟩

theorem driveRaw_of_no_read (hl : c.outReady ≠ .sameAsInReady) (hread : c.readsOut = false)
    (rest : Program) : ∃ p, s.driveRaw c rest = .ok (s.drivePins p rest) := by
  obtain ⟨v, hlevel⟩ := outReadyLevel_of_no_loop hl s.block
  exact ⟨RawCycle.ports c v, by simp [State.driveRaw, hlevel, hread]⟩

/-- A raw cycle that makes neither error is driven. -/
theorem driveRaw_of_no_error (hl : c.outReady ≠ .sameAsInReady)
    (hread : c.readsOut = true → s.block.outValid c.rst = true) (rest : Program) :
    ∃ d, s.driveRaw c rest = .ok d := by
  cases hc : c.readsOut with
  | false =>
    obtain ⟨p, hdrive⟩ := driveRaw_of_no_read (s := s) hl hc rest
    exact ⟨_, hdrive⟩
  | true =>
    obtain ⟨r, hr⟩ := exists_outR_of_outValid (hread hc)
    obtain ⟨p, hdrive⟩ := driveRaw_of_read hl hc hr rest
    exact ⟨_, hdrive⟩

end

/-! ### The statement that a step reaches -/

theorem step_of_raw_error {s : State} {c : RawCycle} {rest : Program} {e : Refusal}
    (hp : s.host.prog = .raw c :: rest) (hd : s.driveRaw c rest = .error e) :
    step s = .refused e := by
  rw [step_eq_clock, hp, State.drive, turn_raw, hd]

theorem step_of_raw_ok {s d : State} {c : RawCycle} {rest : Program}
    (hp : s.host.prog = .raw c :: rest) (hd : s.driveRaw c rest = .ok d) :
    step s = .next d.clock.afterEdge :=
  step_of_turn_cycle hp ((turn_raw s rest c).trans (congrArg Turn.cycle hd))

/-- Every cycle but a raw one is driven, whatever the block holds. -/
theorem turn_cycle_ok_of_ne_raw {s : State} {st : Stmt} {rest : Program} {driven : Except Refusal State}
    (ht : s.turn rest st = .cycle driven) (hne : ∀ c, st ≠ .raw c) : ∃ d, driven = .ok d := by
  cases st with
  | reset => cases ht; exact ⟨_, rfl⟩
  | mix beat => cases ht; exact ⟨_, rfl⟩
  | idle n => cases n <;> cases ht; exact ⟨_, rfl⟩
  | drain =>
    simp only [State.turn] at ht
    split at ht <;> cases ht
    exact ⟨_, rfl⟩
  | raw c => exact absurd rfl (hne c)
  | ready b => cases ht
  | take name => cases ht

/-- What the host has still to run is the end of what it was given. -/
theorem load_prog_suffix (s : State) (prog : Program) : (s.load prog).host.prog <:+ prog := by
  unfold State.load
  induction prog generalizing s with
  | nil => exact List.suffix_rfl
  | cons st rest ih =>
    rw [State.proceed]
    cases s.turn rest st with
    | instant t => exact (ih t).trans (List.suffix_cons st rest)
    | cycle driven => exact List.suffix_rfl

section
variable {s : State} {c : RawCycle} {rest : Program}

theorem step_of_reached_loop (h : (s.load s.host.prog).host.prog = .raw c :: rest)
    (hl : c.outReady = .sameAsInReady) : step s = .refused .combinationalLoop := by
  rw [← step_load s]
  exact step_of_raw_error h (driveRaw_of_loop hl rest)

theorem step_of_reached_invalid_read (h : (s.load s.host.prog).host.prog = .raw c :: rest)
    (hl : c.outReady ≠ .sameAsInReady) (hread : c.readsOut = true)
    (hv : s.block.outValid c.rst = false) : step s = .refused .outRWhileNotValid := by
  have hblock : (s.load s.host.prog).block = s.block := afterEdge_block s
  rw [← hblock] at hv
  rw [← step_load s]
  exact step_of_raw_error h (driveRaw_of_invalid_read hl hread hv rest)

theorem step_of_reached_no_error (h : (s.load s.host.prog).host.prog = .raw c :: rest)
    (hl : c.outReady ≠ .sameAsInReady) (hread : c.readsOut = true → s.block.outValid c.rst = true) :
    ∃ t, step s = .next t := by
  have hblock : (s.load s.host.prog).block = s.block := afterEdge_block s
  rw [← hblock] at hread
  rw [← step_load s]
  obtain ⟨d, hd⟩ := driveRaw_of_no_error hl hread rest
  exact ⟨_, step_of_raw_ok h hd⟩

/-- Everything a step can do that reaches a raw cycle: the refusal of the loop, the refusal of the read, or a next
state. -/
theorem step_cases_of_raw (h : (s.load s.host.prog).host.prog = .raw c :: rest) :
    (c.outReady = .sameAsInReady ∧ step s = .refused .combinationalLoop) ∨
    (c.readsOut = true ∧ s.block.outValid c.rst = false ∧ step s = .refused .outRWhileNotValid) ∨
    ∃ t, step s = .next t := by
  by_cases hl : c.outReady = .sameAsInReady
  · exact .inl ⟨hl, step_of_reached_loop h hl⟩
  by_cases hread : c.readsOut = true → s.block.outValid c.rst = true
  · exact .inr (.inr (step_of_reached_no_error h hl hread))
  · obtain ⟨hreads, hv⟩ := Classical.not_imp.1 hread
    rw [Bool.not_eq_true] at hv
    exact .inr (.inl ⟨hreads, hv, step_of_reached_invalid_read h hl hreads hv⟩)

end

/-- A step that reaches no raw cycle answers a next state. -/
theorem step_next_of_no_raw {s : State}
    (h : ∀ c rest, (s.load s.host.prog).host.prog ≠ .raw c :: rest) : ∃ t, step s = .next t := by
  rw [← step_load s]
  rcases proceed_head s.host.prog s with hnil | ⟨st, rest, driven, hp, ht⟩
  · exact ⟨_, step_of_prog_nil hnil⟩
  · obtain ⟨d, rfl⟩ := turn_cycle_ok_of_ne_raw ht fun c hc => h c rest (hc ▸ hp)
    exact ⟨_, step_of_turn_cycle hp ht⟩

/-- A step that is not answered has reached a raw cycle. -/
theorem exists_raw_of_step_refused {s : State} {e : Refusal} (h : step s = .refused e) :
    ∃ c rest, (s.load s.host.prog).host.prog = .raw c :: rest := by
  by_contra hraw
  push Not at hraw
  obtain ⟨t, ht⟩ := step_next_of_no_raw hraw
  cases h.symm.trans ht

/-- Settles O28: a step that reaches a raw cycle has the three outcomes of one, and any other is answered. -/
theorem stepsAreRefusedOnlyAsTheSpecSays : Obligations.StepsAreRefusedOnlyAsTheSpecSays := by
  refine ⟨fun s => ?outcomes, fun s hs => ?ofRead, fun s hs => ?ofLoop,
    fun s c rest => step_of_reached_no_error, fun s c rest => step_of_reached_loop,
    fun s c rest => step_of_reached_invalid_read, fun s => step_next_of_no_raw,
    fun s hraw => ?rawFree⟩
  case outcomes =>
    by_cases hraw : ∃ c rest, (s.load s.host.prog).host.prog = .raw c :: rest
    · obtain ⟨c, rest, hp⟩ := hraw
      rcases step_cases_of_raw hp with ⟨-, h⟩ | ⟨-, -, h⟩ | h
      · exact .inr (.inr h)
      · exact .inr (.inl h)
      · exact .inl h
    · push Not at hraw
      exact .inl (step_next_of_no_raw hraw)
  case ofRead =>
    obtain ⟨c, rest, hp⟩ := exists_raw_of_step_refused hs
    rcases step_cases_of_raw hp with ⟨-, h⟩ | ⟨hread, hv, -⟩ | ⟨t, h⟩
    · cases hs.symm.trans h
    · exact ⟨c, rest, hp, hread, hv⟩
    · cases hs.symm.trans h
  case ofLoop =>
    obtain ⟨c, rest, hp⟩ := exists_raw_of_step_refused hs
    rcases step_cases_of_raw hp with ⟨hl, -⟩ | ⟨-, -, h⟩ | ⟨t, h⟩
    · exact ⟨c, rest, hp, hl⟩
    · cases hs.symm.trans h
    · cases hs.symm.trans h
  case rawFree =>
    refine step_next_of_no_raw fun c rest hp => hraw c ?_
    exact (load_prog_suffix s s.host.prog).subset (hp ▸ List.mem_cons_self)

/-! ### The value that is read -/

theorem afterEdge_seen (s : State) : s.afterEdge.host.seen = s.host.seen := by
  obtain ⟨rest, ready, names, hafter⟩ := afterEdge_eq s
  rw [hafter]

/-- A raw cycle at the head of the program reads what `out_r` holds in it. -/
theorem step_seen_of_read {s : State} {c : RawCycle} {rest : Program} {r : Word}
    (hp : s.host.prog = .raw c :: rest) (hl : c.outReady ≠ .sameAsInReady) (hread : c.readsOut = true)
    (hr : s.block.outR c.rst = some r) :
    ∃ t, step s = .next t ∧ t.host.seen = s.host.seen ++ [r] := by
  obtain ⟨p, hdrive⟩ := driveRaw_of_read hl hread hr rest
  refine ⟨_, step_of_raw_ok hp hdrive, ?_⟩
  rw [afterEdge_seen, clock_host, receive_seen, drivePins_host, see_host]

/-- Settles O29: a raw cycle at the head is the one that the step reaches. -/
theorem readingOutRNeedsOutValid : Obligations.ReadingOutRNeedsOutValid := by
  intro s c rest hp
  have hreached : (s.load s.host.prog).host.prog = .raw c :: rest := by
    have hload : s.load s.host.prog = s := afterEdge_of_cycle hp (turn_raw s rest c)
    rw [hload, hp]
  refine ⟨step_of_reached_loop hreached, step_of_reached_invalid_read hreached,
    fun r hl hread hrst h3 => ?read⟩
  case read =>
    have hout : s.block.outR c.rst = some r := (outR_eq_some_iff _ _ _).2 ⟨hrst, h3⟩
    exact step_seen_of_read hp hl hread hout

end Sys2Proof.Proofs
end

section
/-! The stuck run (60_exceptions.md R132, 93_implementation_defined.md U6): while `S3` holds a result that the host
does not take, an edge changes the ports and counts itself, and nothing else. -/

namespace Sys2Proof.Proofs

open Sys2Proof.Machine Sys2Proof.Laws

theorem en_eq_false_of_v3 {b : Block} (h : b.v3 = true) : b.en false = false := by
  simp [Block.en, h]

theorem inReady_eq_false_of_v3 {b : Block} (h : b.v3 = true) (rst : Bool) : b.inReady rst false = false := by
  simp [Block.inReady, en_eq_false_of_v3 h]

/-- A row of edges that do not take the result. -/
theorem clocks_of_not_taken {s : State} {ps : List Ports} (h3 : s.block.v3 = true)
    (hps : ∀ p ∈ ps, p.rst = false ∧ p.outReady = false) :
    ∃ pins cycle, s.clocks ps = { s with pins := pins, cycle := cycle } := by
  induction ps generalizing s with
  | nil => exact ⟨_, _, rfl⟩
  | cons p ps ih =>
    obtain ⟨⟨hr, ho⟩, htail⟩ := List.forall_mem_cons.1 hps
    have hen : s.block.en p.outReady = false := by rw [ho, en_eq_false_of_v3 h3]
    rw [clocks_cons, clock_of_hold hr hen]
    exact ih (s := { s with pins := p, cycle := s.cycle + 1 }) h3 htail

/-- A waiting MIX is offered again, and still waits after the edge. -/
theorem step_of_stuckOnHost {s : State} (h : s.StuckOnHost) :
    ∃ pins, step s = .next { s with pins := pins, cycle := s.cycle + 1 } := by
  obtain ⟨h3, hready, beat, rest, hp⟩ := h
  have hturn : s.turn rest (.mix beat) =
      .cycle (.ok (s.drivePins (offerPorts beat false) s.host.prog)) := by
    rw [turn_mix, hready, inReady_eq_false_of_v3 h3, hp]
    simp
  have hclock : (s.drivePins (offerPorts beat false) s.host.prog).clock =
      { s with pins := offerPorts beat false, cycle := s.cycle + 1 } :=
    clock_of_hold rfl (en_eq_false_of_v3 h3)
  have hwaits : State.afterEdge { s with pins := offerPorts beat false, cycle := s.cycle + 1 } =
      { s with pins := offerPorts beat false, cycle := s.cycle + 1 } :=
    afterEdge_of_cycle hp (turn_mix _ rest beat)
  exact ⟨offerPorts beat false, by rw [step_of_turn_cycle hp hturn, hclock, hwaits]⟩

theorem after_of_stuckOnHost {s : State} (h : s.StuckOnHost) (n : Nat) :
    ∃ pins cycle, s.after n = .next { s with pins := pins, cycle := cycle } := by
  induction n generalizing s with
  | zero => exact ⟨_, _, after_zero s⟩
  | succ n ih =>
    obtain ⟨pins, hstep⟩ := step_of_stuckOnHost h
    rw [after_succ_of_next n hstep]
    exact ih (s := { s with pins := pins, cycle := s.cycle + 1 }) h

/-- Settles O27: neither an edge nor a step of the waiting host changes more than the ports and the count of
edges. -/
theorem stuckHostHoldsTheBlockForEver : Obligations.StuckHostHoldsTheBlockForEver := by
  refine ⟨fun s ps h3 hps => ?edges, fun s n hstuck => ?steps⟩
  case edges =>
    obtain ⟨pins, cycle, hrun⟩ := clocks_of_not_taken h3 hps
    rw [hrun]
    refine ⟨rfl, rfl, rfl, rfl, fun p hp => ?_, inReady_eq_false_of_v3 h3 false⟩
    obtain ⟨-, ho⟩ := hps p hp
    rw [ho]
    exact inReady_eq_false_of_v3 h3 p.rst
  case steps =>
    obtain ⟨pins, cycle, hrun⟩ := after_of_stuckOnHost hstuck n
    have ⟨h3, hready, _⟩ := hstuck
    refine ⟨_, hrun, rfl, rfl, rfl, rfl, hstuck, ?_⟩
    rw [hready]
    exact inReady_eq_false_of_v3 h3 false

end Sys2Proof.Proofs
end

section
/-! Blocks side by side (60_exceptions.md R127, 20_memory.md R58): a step of one reads and writes its own place of
the platform alone. -/

namespace Sys2Proof.Proofs

open Sys2Proof.Machine

section
variable {p q : Platform} {i : Nat}

/-- Everything a step at a place can answer: nothing stands there and nothing happens, or the block there steps. -/
theorem stepAt_eq_next_iff : p.stepAt i = .next q ↔
    (p[i]? = none ∧ q = p) ∨ ∃ s t, p[i]? = some s ∧ step s = .next t ∧ q = p.set i t := by
  unfold Platform.stepAt
  cases hs : p[i]? with
  | none => simp [eq_comm]
  | some s => cases hstep : step s <;> simp [hstep, eq_comm]

/-- A step at one place leaves every other block as it is. -/
theorem stepAt_getElem?_of_ne (h : p.stepAt i = .next q) {k : Nat} (hk : k ≠ i) : q[k]? = p[k]? := by
  rcases stepAt_eq_next_iff.1 h with ⟨-, rfl⟩ | ⟨s, t, -, -, rfl⟩
  · rfl
  · exact List.getElem?_set_ne hk.symm

/-- A step at one place does not see what is put at another. -/
theorem stepAt_set_of_ne (h : p.stepAt i = .next q) {j : Nat} (hj : j ≠ i) (x : State) :
    Platform.stepAt (p.set j x) i = .next (q.set j x) := by
  have hi : (p.set j x)[i]? = p[i]? := List.getElem?_set_ne hj
  rcases stepAt_eq_next_iff.1 h with ⟨hnone, rfl⟩ | ⟨s, t, hs, hstep, rfl⟩
  · exact stepAt_eq_next_iff.2 (.inl ⟨hi.trans hnone, rfl⟩)
  · exact stepAt_eq_next_iff.2 (.inr ⟨s, t, hi.trans hs, hstep, List.set_comm _ _ hj.symm⟩)

end

/-- Settles O47: the second block steps from what it held before the first step, and the first step does not see
what the second one put in its place. -/
theorem blocksSideBySideAreIndependent : Obligations.BlocksSideBySideAreIndependent := by
  intro p q r i j hij hi hj
  have hframe (k : Nat) (hk : k ≠ i) : q[k]? = p[k]? := stepAt_getElem?_of_ne hi hk
  refine ⟨hframe, ?_⟩
  have hqp : q[j]? = p[j]? := hframe j hij.symm
  rcases stepAt_eq_next_iff.1 hj with ⟨hnone, rfl⟩ | ⟨s, t, hs, hstep, rfl⟩
  · exact ⟨p, stepAt_eq_next_iff.2 (.inl ⟨hqp.symm.trans hnone, rfl⟩), hi⟩
  · exact ⟨p.set j t, stepAt_eq_next_iff.2 (.inr ⟨s, t, hqp.symm.trans hs, hstep, rfl⟩),
      stepAt_set_of_ne hi hij.symm t⟩

end Sys2Proof.Proofs
end

section
/-! A reset and what follows it (70_reset_and_hazards.md R141-R144): no handshake in its cycle, empty stages after
it, and then only what has been accepted since. -/

namespace Sys2Proof.Proofs

open Sys2Proof.Machine Sys2Proof.Laws

/-! ### Handshakes in a reset cycle and after it -/

theorem inReady_of_rst (b : Block) (o : Bool) : b.inReady true o = false := rfl

theorem outValid_of_rst (b : Block) : b.outValid true = false := rfl

theorem accepts_of_rst {b : Block} {p : Ports} (hr : p.rst = true) : b.accepts p = false := by
  rw [Block.accepts, hr, inReady_of_rst, Bool.and_false]

theorem delivers_of_rst {b : Block} {p : Ports} (hr : p.rst = true) : b.delivers p = false := by
  rw [Block.delivers, hr, outValid_of_rst, Bool.false_and]

/-- Settles O12: `rst` holds both ports at 0, and each handshake needs one of them. -/
theorem noHandshakeWhileReset : Obligations.NoHandshakeWhileReset := by
  intro b p hr
  have hin : b.inReady p.rst p.outReady = false := by rw [hr, inReady_of_rst]
  have hout : b.outValid p.rst = false := by rw [hr, outValid_of_rst]
  exact ⟨hin, hout, accepts_of_rst hr, delivers_of_rst hr⟩

/-- The accepted pair is in `S1` after the edge. -/
theorem edge_s1_of_accepts {b : Block} {p : Ports} (h : b.accepts p = true) :
    (b.edge p).s1 = some (mixTerms p.inM p.inC) := by
  obtain ⟨hr, hen, hv⟩ := (accepts_eq_true_iff b p).1 h
  rw [edge_of_en b p hr hen, advance_s1, if_pos hv]

/-- An empty block is free to move, whatever level `out_ready` has. -/
theorem en_empty (o : Bool) : Block.empty.en o = true := (en_eq_true_iff _ _).2 (.inl rfl)

/-- Settles O14: the reset edge leaves `S3` empty, so the pipeline is free to move. -/
theorem firstOfferAfterResetIsAccepted : Obligations.FirstOfferAfterResetIsAccepted := by
  intro b p q hp hq
  rw [edge_of_rst b p hp]
  have hen : Block.empty.en q.outReady = true := en_empty q.outReady
  refine ⟨(inReady_eq_true_iff _ _ _).2 ⟨hq, hen⟩, fun hv => ?offered⟩
  case offered =>
    have hacc : Block.empty.accepts q = true := (accepts_eq_true_iff _ _).2 ⟨hq, hen, hv⟩
    exact ⟨acceptance_of_accepts _ _ hacc, edge_s1_of_accepts hacc⟩

/-! ### Rows of edges that begin with a reset -/

theorem edges_empty_of_rst {ps : List Ports} (h : ∀ p ∈ ps, p.rst = true) :
    Block.empty.edges ps = Block.empty := by
  induction ps with
  | nil => rfl
  | cons p ps ih =>
    obtain ⟨hr, htail⟩ := List.forall_mem_cons.1 h
    rw [edges_cons, edge_of_rst _ _ hr, ih htail]

/-- Settles O13: the first reset edge empties the stages, and the others find them empty. -/
theorem manyResetEdgesEqualOne : Obligations.ManyResetEdgesEqualOne := by
  intro b p ps hp hps
  rw [edges_cons, edge_of_rst b p hp, edges_empty_of_rst hps]

/-- A reset edge starts the record anew, from any state. -/
theorem streaming_of_rst {s : State} {p : Ports} (hr : p.rst = true) :
    Streaming s.host [] s.host.prog (s.clocks [p]) := by
  have hclock : s.clocks [p] = { s with
      pins := p, block := Block.empty, accepted := [], delivered := [], cycle := s.cycle + 1 } :=
    clock_of_rst (s := { s with pins := p }) hr
  rw [hclock]
  exact ⟨rfl, rfl, by simp⟩

/-- Any row of edges without a reset goes on from there, with the pairs accepted at them. -/
theorem Streaming.clocks {h : HostSide} {done : List Pair} {s : State} {ps : List Ports}
    (hs : Streaming h done s.host.prog s) (hps : NoReset ps) :
    ∃ fresh, Streaming h (done ++ fresh) s.host.prog (s.clocks ps) := by
  induction ps generalizing done s with
  | nil => exact ⟨[], by simpa [State.clocks] using hs⟩
  | cons p ps ih =>
    obtain ⟨hr, htail⟩ := List.forall_mem_cons.1 hps
    obtain ⟨fresh, hfresh⟩ := ih (s := State.clock { s with pins := p }) (hs.clock_drivePins hr) htail
    exact ⟨(s.block.acceptance p).toList ++ fresh, by rwa [List.append_assoc] at hfresh⟩

/-- Settles O15: the reset edge leaves nothing in flight and an empty record, and from there on the record, the
pending results and what the host receives speak of the pairs accepted since. -/
theorem resetDiscardsWhatIsInFlight : Obligations.ResetDiscardsWhatIsInFlight := by
  intro s p ps hp hps
  have hblock : (s.clocks [p]).block = Block.empty := clock_block_of_rst { s with pins := p } hp
  have hreset : Streaming s.host [] s.host.prog (s.clocks [p]) := streaming_of_rst hp
  have hdel : (s.clocks [p]).delivered = [] := hreset.delivered_of_empty hblock
  have hprog : (s.clocks [p]).host.prog = s.host.prog := hreset.prog_eq
  obtain ⟨fresh, hs⟩ := Streaming.clocks (hprog.symm ▸ hreset) hps
  have hrow : (s.clocks [p]).clocks ps = s.clocks (p :: ps) := rfl
  rw [hrow] at hs
  refine ⟨by rw [hblock, pendingResults_empty], hreset.accepted, hdel, ?atReset, ?inOrder, ?received⟩
  case atReset => simp [hreset.host, hdel]
  case inOrder => rw [hs.inOrder, hs.accepted]
  case received => rw [hs.host]

end Sys2Proof.Proofs
end

section
/-! Latency and progress (70_reset_and_hazards.md R151-R153): a row of edges without a reset is its advances, with
any number of stall edges between them. -/

namespace Sys2Proof.Proofs

open Sys2Proof.Machine Sys2Proof.Laws

/-! ### The advances of a row of edges -/

section
variable {b : Block} {p : Ports} {ps : List Ports}

theorem advances_cons_of_en (hr : p.rst = false) (he : b.en p.outReady = true) :
    b.advances (p :: ps) = (b.advance p).advances ps + 1 := by
  simp [Block.advances, hr, he, edge_of_en b p hr he, Nat.add_comm]

theorem advances_cons_of_hold (hr : p.rst = false) (he : b.en p.outReady = false) :
    b.advances (p :: ps) = b.advances ps := by
  simp [Block.advances, he, edge_of_hold b p hr he]

/-- Stall edges alone leave every stage as it was. -/
theorem edges_of_advances_eq_zero (hps : NoReset ps) (h : b.advances ps = 0) : b.edges ps = b := by
  induction ps with
  | nil => rfl
  | cons p ps ih =>
    obtain ⟨hr, htail⟩ := List.forall_mem_cons.1 hps
    cases he : b.en p.outReady with
    | true => simp [advances_cons_of_en hr he] at h
    | false =>
      rw [advances_cons_of_hold hr he] at h
      rw [edges_cons, edge_of_hold b p hr he, ih htail h]

/-- A row with an advance is stall edges, which change nothing, then the advance, then the rest of the row. -/
theorem exists_first_advance {n : Nat} (hps : NoReset ps) (h : b.advances ps = n + 1) :
    ∃ q qs, NoReset qs ∧ b.edges ps = (b.advance q).edges qs ∧ (b.advance q).advances qs = n := by
  induction ps with
  | nil => cases h
  | cons p ps ih =>
    obtain ⟨hr, htail⟩ := List.forall_mem_cons.1 hps
    cases he : b.en p.outReady with
    | true =>
      rw [advances_cons_of_en hr he] at h
      exact ⟨p, ps, htail, by rw [edges_cons, edge_of_en b p hr he], Nat.succ.inj h⟩
    | false =>
      rw [advances_cons_of_hold hr he] at h
      rw [edges_cons, edge_of_hold b p hr he]
      exact ih htail h

theorem edges_of_advances_eq_one (hps : NoReset ps) (h : b.advances ps = 1) :
    ∃ q, b.edges ps = b.advance q := by
  obtain ⟨q, qs, hqs, hedges, hrest⟩ := exists_first_advance hps h
  exact ⟨q, by rw [hedges, edges_of_advances_eq_zero hqs hrest]⟩

theorem edges_of_advances_eq_two (hps : NoReset ps) (h : b.advances ps = 2) :
    ∃ q r, b.edges ps = (b.advance q).advance r := by
  obtain ⟨q, qs, hqs, hedges, hrest⟩ := exists_first_advance hps h
  obtain ⟨r, hlast⟩ := edges_of_advances_eq_one hqs hrest
  exact ⟨q, r, hedges.trans hlast⟩

end

/-- Settles O25: of the edges after the accept only the advances count, and each takes the pair one stage on. -/
theorem resultReachesS3AfterTwoAdvances : Obligations.ResultReachesS3AfterTwoAdvances := by
  intro b p ps hacc hps
  have h1 : (b.edge p).s1 = some (mixTerms p.inM p.inC) := edge_s1_of_accepts hacc
  refine ⟨h1, fun hone => ?inS2, fun htwo => ?inS3⟩
  case inS2 =>
    obtain ⟨q, hedges⟩ := edges_of_advances_eq_one hps hone
    rw [hedges, advance_s2, h1, Option.map_some]
  case inS3 =>
    obtain ⟨q, r, hedges⟩ := edges_of_advances_eq_two hps htwo
    have h3 : ((b.edge p).edges ps).s3 = some (mixer p.inM p.inC) := by
      rw [hedges, advance_s3, advance_s2, h1, Option.map_some, Option.map_some, mixer_eq]
    refine ⟨h3, (outR_eq_some_iff _ _ _).2 ⟨rfl, h3⟩, fun e he ho => ?delivered⟩
    case delivered => rw [delivery_of_en _ _ he ((en_eq_true_iff _ _).2 (.inr ho)), h3]

/-! ### The results that a number of advances deliver -/

/-- The results the stages hold, the next to be delivered first. -/
def stageResults (b : Block) : List (Option Word) :=
  [b.s3, b.s2.map mixExtract, b.s1.map fun t => mixExtract (mixAccumulate t)]

/-- The results that the next `n` advances deliver, of those in flight. -/
def dueResults (b : Block) (n : Nat) : List Word := ((stageResults b).take n).reduceOption

theorem dueResults_three (b : Block) : dueResults b 3 = b.pendingResults := by
  obtain ⟨s1, s2, s3⟩ := b
  cases s1 <;> cases s2 <;> cases s3 <;> rfl

/-- An advance moves the results one place up and puts the one of the offered pair behind them. -/
theorem stageResults_advance (b : Block) (p : Ports) :
    stageResults (b.advance p) = (stageResults b).tail ++
      [(b.advance p).s1.map fun t => mixExtract (mixAccumulate t)] := by
  simp only [stageResults, advance_s3, advance_s2, Option.map_map, List.tail_cons, List.cons_append,
    List.nil_append]
  rfl

/-- What an advance delivers comes off the front of what is due. -/
theorem dueResults_succ (b : Block) (p : Ports) {n : Nat} (hn : n ≤ 2) :
    dueResults b (n + 1) = b.s3.toList ++ dueResults (b.advance p) n := by
  have htake : (stageResults (b.advance p)).take n = (stageResults b).tail.take n := by
    rw [stageResults_advance, List.take_append_of_le_length hn]
  rw [dueResults, dueResults, htake]
  cases h3 : b.s3 <;> simp [stageResults, h3, List.reduceOption_cons_of_none]

theorem dueResults_prefix_advance (b : Block) (p : Ports) {n : Nat} (hn : n ≤ 3) :
    dueResults b n <+: b.s3.toList ++ dueResults (b.advance p) (n - 1) := by
  cases n with
  | zero => exact List.nil_prefix
  | succ n => rw [dueResults_succ b p (Nat.le_of_succ_le_succ hn), Nat.add_sub_cancel]

theorem readyEdges_cons_le (p : Ports) (ps : List Ports) : readyEdges (p :: ps) ≤ readyEdges ps + 1 := by
  rw [readyEdges, List.countP_cons]
  exact Nat.add_le_add_left (by split <;> decide) _

theorem readyEdges_cons_of_not_ready {p : Ports} (h : p.outReady = false) (ps : List Ports) :
    readyEdges (p :: ps) = readyEdges ps :=
  List.countP_cons_of_neg (by simp [h])

/-- An edge with `out_ready = 1` advances, so as many of them as stages deliver what the stages hold. -/
theorem delivered_append_dueResults_prefix {s : State} {ps : List Ports} {n : Nat} (hn : n ≤ 3)
    (hps : NoReset ps) (hready : n ≤ readyEdges ps) :
    s.delivered ++ dueResults s.block n <+: (s.clocks ps).delivered := by
  induction ps generalizing s n with
  | nil =>
    obtain rfl : n = 0 := Nat.le_zero.1 hready
    simp [dueResults, State.clocks]
  | cons p ps ih =>
    obtain ⟨hr, htail⟩ := List.forall_mem_cons.1 hps
    rw [clocks_cons]
    cases hen : s.block.en p.outReady with
    | false =>
      obtain ⟨-, ho⟩ := (en_eq_false_iff _ _).1 hen
      rw [readyEdges_cons_of_not_ready ho] at hready
      rw [clock_of_hold (s := { s with pins := p }) hr hen]
      exact ih (s := { s with pins := p, cycle := s.cycle + 1 }) hn htail hready
    | true =>
      have hrest : n - 1 ≤ readyEdges ps :=
        Nat.sub_le_of_le_add (hready.trans (readyEdges_cons_le p ps))
      have hlater := ih (s := State.clock { s with pins := p }) ((Nat.sub_le n 1).trans hn) htail hrest
      rw [clock_of_en (s := { s with pins := p }) hr hen, List.append_assoc] at hlater
      rw [clock_of_en (s := { s with pins := p }) hr hen]
      exact ((List.prefix_append_right_inj _).2 (dueResults_prefix_advance s.block p hn)).trans hlater

/-- Settles O26: everything in flight is due within three advances. -/
theorem threeReadyEdgesDeliverWhatIsInFlight : Obligations.ThreeReadyEdgesDeliverWhatIsInFlight := by
  refine ⟨fun s ps hps hready => ?delivered, fun b => ?inReady⟩
  case delivered =>
    rw [← dueResults_three]
    exact delivered_append_dueResults_prefix le_rfl hps hready
  case inReady => exact (inReady_eq_true_iff _ _ _).2 ⟨rfl, (en_eq_true_iff _ _).2 (.inr rfl)⟩

end Sys2Proof.Proofs
end

section
/-! A reacting host (70_reset_and_hazards.md R145, R147): the ports it has driven in a run are a row of fixed
values, and a program of raw cycles drives any such row. -/

namespace Sys2Proof.Proofs

open Sys2Proof.Machine Sys2Proof.Laws

/-! ### Rows of cycles one after the other -/

theorem clocks_append (s : State) (ps qs : List Ports) : s.clocks (ps ++ qs) = (s.clocks ps).clocks qs :=
  List.foldl_append

theorem after_add {s t : State} {n : Nat} (h : s.after n = .next t) (k : Nat) :
    s.after (n + k) = t.after k := by
  induction n generalizing s with
  | zero =>
    cases h
    rw [Nat.zero_add]
  | succ n ih =>
    rw [Nat.add_right_comm, State.after]
    rw [State.after] at h
    cases hstep : step s with
    | next u =>
      rw [hstep] at h
      exact ih h
    | fault f => cases f
    | refused r =>
      rw [hstep] at h
      cases h

/-- Two states in which the host goes on in the same way have the same further steps. -/
theorem after_succ_of_afterEdge_eq {s t : State} (h : s.afterEdge = t.afterEdge) (n : Nat) :
    s.after (n + 1) = t.after (n + 1) := by
  have hstep : step s = step t := calc
    step s = step s.afterEdge := (step_load s).symm
    _ = step t.afterEdge := by rw [h]
    _ = step t := step_load t
  rw [State.after, State.after, hstep]

theorem RunsCycles.trans {s : State} {mid rest : Program} {ps qs : List Ports}
    (hps : RunsCycles s mid ps) (hqs : RunsCycles ((s.clocks ps).withProg mid) rest qs) :
    RunsCycles s rest (ps ++ qs) := by
  obtain ⟨t, hrun, hafter⟩ := hps
  obtain ⟨u, hrun', hafter'⟩ := hqs
  rw [clocks_withProg, withProg_withProg, ← clocks_append] at hafter'
  cases qs with
  | nil =>
    cases hrun'
    exact ⟨t, by rwa [List.append_nil], hafter.trans hafter'⟩
  | cons q qs =>
    refine ⟨u, ?_, hafter'⟩
    calc s.after (ps ++ q :: qs).length
      _ = t.after (q :: qs).length := by rw [List.length_append, after_add hrun]
      _ = ((s.clocks ps).withProg mid).after (q :: qs).length := after_succ_of_afterEdge_eq hafter _
      _ = .next u := hrun'

/-! ### Raw cycles with fixed values -/

/-- The raw cycle that drives the values `p` and reads nothing. -/
def fixedCycle (p : Ports) : RawCycle :=
  { rst := p.rst, inValid := p.inValid, inM := p.inM, inC := p.inC, outReady := .level p.outReady,
    readsOut := false }

theorem loopFree_fixedCycle (p : Ports) : (fixedCycle p).loopFree = true := rfl

theorem driveRaw_fixedCycle (s : State) (p : Ports) (rest : Program) :
    s.driveRaw (fixedCycle p) rest = .ok (s.drivePins p rest) := rfl

theorem runsCycles_fixedCycle {s : State} {p : Ports} {rest : Program}
    (hp : s.host.prog = .raw (fixedCycle p) :: rest) : RunsCycles s rest [p] :=
  .of_turn_cycle (ps := []) hp
    ((turn_raw s rest _).trans (congrArg Turn.cycle (driveRaw_fixedCycle s p rest)))
    ⟨_, after_zero _, rfl⟩

/-- The program of fixed raw cycles for a row of port values. -/
def fixedProgram (ps : List Ports) : Program := (ps.map fixedCycle).map Stmt.raw

theorem runsCycles_fixedProgram {s : State} {ps : List Ports} {rest : Program}
    (hp : s.host.prog = fixedProgram ps ++ rest) : RunsCycles s rest ps := by
  induction ps generalizing s with
  | nil =>
    have hprog : s.host.prog = rest := hp
    have hself : (s.clocks []).withProg rest = s := by rw [← hprog]; rfl
    exact ⟨s, after_zero s, by rw [hself]⟩
  | cons p ps ih =>
    have hfirst : RunsCycles s (fixedProgram ps ++ rest) [p] := runsCycles_fixedCycle hp
    exact hfirst.trans (ih rfl)

/-! ### What a strategy has driven -/

/-- A run under a reacting host is a row of edges, one for each cycle. -/
theorem exists_clocks_eq_run (h : Strategy) (n : Nat) (s : State) :
    ∃ ps : List Ports, ps.length = n ∧ h.run n s = s.clocks ps := by
  induction n generalizing s with
  | zero => exact ⟨[], rfl, rfl⟩
  | succ n ih =>
    obtain ⟨ps, hlen, hrun⟩ := ih (h.clock s)
    exact ⟨h.ports s :: ps, congrArg Nat.succ hlen, hrun⟩

/-- The going on does not touch the block, the record and the received results, so two states with the same one
agree on them. -/
theorem frame_of_afterEdge_eq {s t : State} (h : s.afterEdge = t.afterEdge) :
    s.block = t.block ∧ s.accepted = t.accepted ∧ s.delivered = t.delivered ∧
      s.host.results = t.host.results := by
  obtain ⟨rest, ready, names, hs⟩ := afterEdge_eq s
  obtain ⟨rest', ready', names', ht⟩ := afterEdge_eq t
  rw [hs, ht] at h
  injection h with hpins hblock hacc hdel hhost hcycle
  injection hhost with hprog hready hnames hresults hseen
  exact ⟨hblock, hacc, hdel, hresults⟩

/-- Settles O32: the ports that the strategy drives in its run, written down as raw cycles. -/
theorem reactingHostIsAFixedRowOfCycles : Obligations.ReactingHostIsAFixedRowOfCycles := by
  intro h n s rest
  obtain ⟨ps, hlen, hrun⟩ := exists_clocks_eq_run h n s
  refine ⟨ps.map fixedCycle, by rw [List.length_map, hlen], ?loopFree, ?run⟩
  case loopFree => exact List.forall_mem_map.2 fun p _ => loopFree_fixedCycle p
  case run =>
    obtain ⟨t, hafter, hgoesOn⟩ :=
      runsCycles_fixedProgram (s := s.withProg (fixedProgram ps ++ rest)) (rest := rest) rfl
    rw [clocks_withProg, withProg_withProg, ← hrun] at hgoesOn
    obtain ⟨hblock, hacc, hdel, hresults⟩ := frame_of_afterEdge_eq hgoesOn
    refine ⟨t, hlen ▸ hafter, hblock, hacc, hdel, hresults, ?_⟩
    rw [hgoesOn, State.afterEdge, State.load, State.load, withProg_host, proceed_withProg]

end Sys2Proof.Proofs
end
